-- ==== Sys2Proof/Word.lean ====
section
/-! DEFINITION. The three kinds of value the block has (00_scope.md R9, R10): 32-bit words, bytes, single bits. All are
unsigned; no operation of the block has a signed operand. -/

namespace Sys2Proof

/-- A register value, a bus data word or a bus address (R10). -/
abbrev Word := BitVec 32

/-- A character, a pixel channel byte, an element of MSG, TXT or PIX (R10). -/
abbrev Byte := BitVec 8

/-- An element of BIT (R10, R33): one bit, `true` for 1. -/
abbrev Bit := Bool

end Sys2Proof
end

