-- ==== Sys2Proof/Config.lean ====
section
/-! DEFINITION. What one built block fixes (00_scope.md R5, 10_state.md R37), and the free values of what the spec leaves
unspecified (R35, R59). The capacities and the base address are data, held in State, so that every statement is about
every configuration; the free values are opaque, so that no proof can learn one. -/

namespace Sys2Proof

/-- The implementation parameters of R5 and R37. `blockBase` is `BLOCK_BASE`: every address of the model is an offset
from it. -/
structure Config where
  msgCap : Nat
  txtCap : Nat
  bitCap : Nat
  pixCap : Nat
  blockBase : Nat
deriving DecidableEq, Repr

/-- `CFG_T`, the spec's reference configuration for its examples (00_scope.md, after R8). The base address 0 is a
DESIGN CHOICE (log 2). -/
def Config.cfgT : Config := { msgCap := 12, txtCap := 16, bitCap := 128, pixCap := 128, blockBase := 0 }

/-- The n-th free byte: what a read of an element of MSG, TXT or PIX gives that nothing has written since reset (R35,
log 4). -/
opaque Config.freeByte : Nat → Byte

/-- The n-th free bit: what a read of an element of BIT gives that nothing has written since reset (R35, log 4). -/
opaque Config.freeBit : Nat → Bit

/-- The n-th free word: the `rdata` of an `ERROR` response (20_memory.md R59, log 7). -/
opaque Config.freeWord : Nat → Word

end Sys2Proof
end

