-- ==== Sys2Proof/Syntax.lean ====
section
/-! DEFINITION. What can be written down: the four commands (30_encoding.md R82), a host bus transaction (20_memory.md
R50, 30_encoding.md R86), and the host program notation HASM (R87-R89). -/

namespace Sys2Proof

/-- The commands: one constructor per row of spec/opcode_table.json. No command has an operand field (R85). -/
inductive Instr where
  /-- SER, serialize (R120). -/
  | ser
  /-- DES, deserialize (R127). -/
  | des
  /-- EMB, embed (R150). -/
  | emb
  /-- EXT, extract (R159). -/
  | ext
deriving DecidableEq, Repr

/-- The `kind` of a transaction (R50, R86); `wdata` is present only for a write. -/
inductive BusKind where
  | read
  | write (wdata : Word)
deriving DecidableEq, Repr

/-- A host bus transaction (R50, R86): `addr` is a byte offset from `BLOCK_BASE`, `size` a number of bytes. -/
structure BusTx where
  kind : BusKind
  addr : Word
  size : Nat
deriving DecidableEq, Repr

/-- A host register r0 to r7 (R87). -/
abbrev Reg := Fin 8

/-- A label of a HASM program (R87). The numbered ones beside `user` are the labels the pseudo-instructions make, unique
to each use by their number (R90, R93). -/
inductive Label where
  | user (n : Nat)
  | poll (k : Nat)
  | encDone (k : Nat)
  | decDone (k : Nat)
deriving DecidableEq, Repr

/-- A HASM statement (R88, R89). A command written as its mnemonic stands for a write of its word to CMD (R88, R94). -/
inductive Stmt where
  | wr (a v : Word)
  | rd (a : Word) (r : Reg)
  | cmd (i : Instr)
  | bset (r : Reg) (b : Fin 32) (l : Label)
  | bclr (r : Reg) (b : Fin 32) (l : Label)
  | jmp (l : Label)
  | halt
deriving DecidableEq, Repr

/-- One item of a HASM program: a label, which names the next statement, or a statement (R87). -/
inductive Line where
  | label (l : Label)
  | stmt (st : Stmt)
deriving DecidableEq, Repr

end Sys2Proof
end

