-- ==== Sys2Proof/WellFormed.lean ====
section
/-! DEFINITION. Which terms are well formed: the legal configurations (00_scope.md R6), the bus transactions the port
does not refuse for their form (20_memory.md R51, R52), and the HASM programs whose labels mean one line each (30_encoding.md
R87). A command has no operand, so every command is well formed. -/

namespace Sys2Proof

/-- K1 to K4 of R6. -/
abbrev Config.Legal (c : Config) : Prop :=
  8 * (c.msgCap + 4) ≤ c.bitCap ∧
  c.pixCap ≤ c.bitCap ∧
  c.bitCap / 8 ≤ c.txtCap ∧
  (c.msgCap ≤ 2 ^ 28 ∧ c.txtCap ≤ 2 ^ 28 ∧ c.pixCap ≤ 2 ^ 28 ∧ (c.bitCap + 7) / 8 ≤ 2 ^ 28)

/-- A command carries no register field, no immediate and no address (R85): nothing in it can be out of range. -/
def Instr.wellFormed : Instr → Bool
  | .ser => true
  | .des => true
  | .emb => true
  | .ext => true

/-- A transaction the port takes: a 32-bit word (R51) at an aligned address (R52). -/
def BusTx.wellFormed (tx : BusTx) : Bool :=
  decide (tx.size = 4) && decide (tx.addr.extractLsb' 0 2 = 0)

/-- The labels a program defines, in line order. -/
def labelsOf : List Line → List Label
  | [] => []
  | .label l :: rest => l :: labelsOf rest
  | .stmt _ :: rest => labelsOf rest

/-- The labels a statement branches to. -/
def Stmt.targets : Stmt → List Label
  | .bset _ _ l => [l]
  | .bclr _ _ l => [l]
  | .jmp l => [l]
  | .wr _ _ => []
  | .rd _ _ => []
  | .cmd _ => []
  | .halt => []

/-- The labels a line branches to: none for a label, its statement's for a statement. -/
def Line.targets : Line → List Label
  | .label _ => []
  | .stmt st => st.targets

/-- A program whose labels are each defined once and whose branches all go to a defined label (R87, R89, R90). -/
def programWellFormed (p : List Line) : Bool :=
  decide (labelsOf p).Nodup && p.all fun ln => ln.targets.all fun l => decide (l ∈ labelsOf p)

end Sys2Proof
end

