-- ==== Sys2Proof/Decode.lean ====
section
/-! DEFINITION. Reading and writing command words (30_encoding.md R80-R84): the byte order of a word (20_memory.md R53),
the opcode table as mask and match (R83), the decoder, total on any bytes and rejecting by name, and the encoder from the
two fields of the word (R80, R82). -/

namespace Sys2Proof

/-- The four lanes of a word, the byte at the lowest offset first (R53): little-endian. -/
def bytesOfWord (w : Word) : List Byte :=
  [w.extractLsb' 0 8, w.extractLsb' 8 8, w.extractLsb' 16 8, w.extractLsb' 24 8]

/-- The word whose lanes are `b0` (lowest offset) to `b3` (R53). -/
def wordOfBytes (b0 b1 b2 b3 : Byte) : Word := b3 ++ b2 ++ b1 ++ b0

/-- One row of the opcode table (R83): a word `w` selects `instr` exactly when `w &&& mask = value`. -/
structure OpRow where
  instr : Instr
  mask : Word
  value : Word
deriving DecidableEq, Repr

/-- The rows of spec/opcode_table.json (R82, R83). -/
def opcodeTable : List OpRow :=
  [ { instr := .ser, mask := 0xFFFFFFFF, value := 0x00000001 },
    { instr := .des, mask := 0xFFFFFFFF, value := 0x00000002 },
    { instr := .emb, mask := 0xFFFFFFFF, value := 0x00000003 },
    { instr := .ext, mask := 0xFFFFFFFF, value := 0x00000004 } ]

/-- Does the word match the row (R83)? -/
def OpRow.selects (r : OpRow) (w : Word) : Bool := w &&& r.mask == r.value

/-- Why bytes are no command. -/
inductive DecodeError where
  /-- Fewer than four bytes: a command is exactly one 32-bit word (R81). -/
  | truncated
  /-- `w[31:4] != 0` (R84). -/
  | reservedBitsSet
  /-- `w[31:4] = 0` and `w[3:0]` is 0x0 or in 0x5 to 0xF (R84). -/
  | illegalOpcode
deriving DecidableEq, Repr

/-- Decode a command word (R83): the row it matches, or the reason it is illegal (R84). -/
def decodeWord (w : Word) : Except DecodeError Instr :=
  match opcodeTable.find? (OpRow.selects · w) with
  | some r => .ok r.instr
  | none => .error (if w.extractLsb' 4 28 = 0 then .illegalOpcode else .reservedBitsSet)

/-- Decode the command at the head of any bytes, in bus byte order (R53, R81), with the bytes after it. -/
def decode : List Byte → Except DecodeError (Instr × List Byte)
  | b0 :: b1 :: b2 :: b3 :: rest => (decodeWord (wordOfBytes b0 b1 b2 b3)).map (·, rest)
  | _ => .error .truncated

/-- The operation code of each command (R82). -/
def opc : Instr → BitVec 4
  | .ser => 0x1
  | .des => 0x2
  | .emb => 0x3
  | .ext => 0x4

/-- The command word (R80): RES = 0 in bits 31:4, OPC in bits 3:0. -/
def encode (i : Instr) : Word := 0#28 ++ opc i

/-- The command word in bus byte order. -/
def encodeBytes (i : Instr) : List Byte := bytesOfWord (encode i)

/-- What the decoder reads from an instruction whose `nbits` bits are `w` (bit 0 the least significant), every bit above
them 0: the word laid out as four bytes in bus byte order, decoded. -/
def decodeTableWord (nbits w : Nat) : Option Instr :=
  match decode (bytesOfWord (BitVec.ofNat 32 (w % 2 ^ nbits))) with
  | .ok (i, _) => some i
  | .error _ => none

end Sys2Proof
end

