-- ==== Sys2Proof/Machine/State.lean ====
section
/-! DEFINITION. The state of the block and of its host port, as plain data (10_state.md), the reasons a step can stop,
and the machine right after reset (70_reset_and_hazards.md R200). -/

namespace Sys2Proof.Machine

/-- A buffer: the elements written since reset, by index. Canonical form: indices strictly rising (`Memory.wf`). An
element that is not listed has not been written since reset and reads as a free value (R35, log 4, log 5). -/
abbrev Buffer (α : Type) := List (Nat × α)

/-- The four buffers (R31 to R34). MSG, TXT and PIX hold bytes (`Buffer Byte` is `List Host.Cell`), BIT holds single bits; the
packed bytes `BITBYTE` are a view of BIT (R33). -/
structure Memory where
  msg : Buffer Byte
  txt : Buffer Byte
  bit : Buffer Bit
  pix : Buffer Byte
deriving DecidableEq, Repr

/-- The fields of STATUS (R24). The reserved bits are hardwired to 0 and have no storage. -/
structure Status where
  busy : Bool
  done : Bool
  err : Bool
  errcode : BitVec 4
  termFound : Bool
  trunc : Bool
deriving DecidableEq, Repr

/-- The command errors (R180): the causes a command can `raise`. The `info` of R184 is not stored, so it is not kept
here. -/
inductive CommandError where
  | illegalCommand
  | lengthRange
  | capacityExceeded
deriving DecidableEq, Repr

/-- The response to a bus transaction (R50). The `rdata` of an `ERROR` is unspecified (R59): a free word. -/
inductive Response where
  | okayRead (rdata : Word)
  | okayWrite
  | error (rdata : Word)
deriving DecidableEq, Repr

/-- Who issued a transaction: the host program HASM, with the register an `RD` loads, or another user of the one host
stream (R67). -/
inductive Origin where
  | stream
  | program (dst : Option Reg)
deriving DecidableEq, Repr

/-- A transaction on the port that has no response yet (R62). -/
structure Held where
  tx : BusTx
  origin : Origin
deriving DecidableEq, Repr

/-- The host program and the host's private registers (R87): the host's, not the block's (R37). `pc` is the index of the
line the host goes on with. -/
structure HostState where
  program : List Line
  pc : Nat
  regs : Vector Word 8
  stopped : Bool
deriving DecidableEq, Repr

/-- What happens next outside the block, and which agent moves (R20, R201, R214, log 6). -/
inductive Input where
  /-- The host stream issues this transaction (R50, R67). -/
  | issue (tx : BusTx)
  /-- The host program's turn: its next statement (R88, R89). -/
  | hostTurn
  /-- The block's turn: the ENGINE's step, or the response to a transaction that was held (R62, R104). -/
  | blockTurn
  /-- A pulse on the reset input (R201). -/
  | reset
deriving DecidableEq, Repr

/-- The state. `status` to `pixLen`, `txtLen` and `mem` are the block's registers and buffers (R24 to R28, R30 to R34);
`cfg` holds the parameters, whose word views are the CAP registers (R29, R37); `held` and `response` are the host port
(R50, R62); `host` is the host program (R87); `inputs` says what moves next (log 6); `draws` is the MODEL's own counter of
free values drawn (log 4). CMD has no storage (R22). -/
structure State where
  cfg : Config
  status : Status
  pending : Word
  msgLen : Word
  bitLen : Word
  pixLen : Word
  txtLen : Word
  mem : Memory
  draws : Nat
  held : Option Held
  response : Option Response
  host : HostState
  inputs : List Input
deriving DecidableEq, Repr

/-- Events that stop the block: there are none. It has no trap (60_exceptions.md R190); a command error is a value of
STATUS (R184), a bus error is a response (R59, R186). -/
inductive Fault where
deriving DecidableEq, Repr

/-- What the model gives no meaning to. -/
inductive Refusal where
  /-- Raised by an arm of `exec` whose command has no meaning yet (there is none). Safe: a refused step proves nothing. -/
  | notModelled (mnemonic : String)
  /-- Raised by `step` when the configuration breaks K1 to K4 (00_scope.md R6: a model must refuse it). Safe. -/
  | illegalConfiguration
  /-- Raised by the host program when it branches to a label it does not define: the notation gives that no meaning (R87,
  R89, log 8). Safe. -/
  | undefinedLabel
deriving DecidableEq, Repr

/-- STATUS after reset: `0x0000_0000` (R200). -/
def Status.reset : Status :=
  { busy := false, done := false, err := false, errcode := 0, termFound := false, trunc := false }

/-- The buffers after reset: nothing has been written (R35, R200). -/
def Memory.reset : Memory := { msg := [], txt := [], bit := [], pix := [] }

/-- A host at the start of its program (log 8): registers zero, not stopped. -/
def HostState.start (p : List Line) : HostState :=
  { program := p, pc := 0, regs := Vector.replicate 8 0, stopped := false }

/-- The machine right after reset (R200): STATUS and the four length registers 0, no element written, no transaction
held. DESIGN CHOICES: the configuration (logs 1 and 2), PENDING = 0 (log 3), the model's counter (log 4), no inputs (log
6), no response yet (log 9), a host with no program and zero registers (log 8). -/
def State.reset : State :=
  { cfg := Config.cfgT
    status := Status.reset
    pending := 0
    msgLen := 0
    bitLen := 0
    pixLen := 0
    txtLen := 0
    mem := Memory.reset
    draws := 0
    held := none
    response := none
    host := HostState.start []
    inputs := [] }

end Sys2Proof.Machine
end

