-- ==== Sys2Proof/Machine/Flags.lean ====
section
/-! DEFINITION. Every computation of a STATUS field (10_state.md R24, R36): at the start of a command (R102), at its
success (R106), at an error (60_exceptions.md R180, R184), and the two outcome flags of DES (41_bitstream_codec.md R130,
R131); and STATUS as the word the host reads. -/

namespace Sys2Proof.Machine

/-- The word the host reads at 0x004 (R24): TRUNC is bit 9, TERM_FOUND bit 8, ERRCODE bits 7:4, bit 3 reads 0, then ERR,
DONE and BUSY; bits 31:10 read 0. -/
def Status.toWord (st : Status) : Word :=
  0#22 ++ BitVec.ofBool st.trunc ++ BitVec.ofBool st.termFound ++ st.errcode ++ 0#1 ++ BitVec.ofBool st.err
    ++ BitVec.ofBool st.done ++ BitVec.ofBool st.busy

/-- `STATUS <- 0x0000_0001` (R102): BUSY, every other field 0. -/
def Status.started : Status :=
  { busy := true, done := false, err := false, errcode := 0, termFound := false, trunc := false }

/-- `complete` (R106): BUSY and DONE change, the other fields keep what the command wrote. -/
def Status.completed (st : Status) : Status := { st with busy := false, done := true }

/-- The code of each error (R180). -/
def CommandError.code : CommandError → BitVec 4
  | .illegalCommand => 1
  | .lengthRange => 2
  | .capacityExceeded => 3

/-- `raise` (R184): ERRCODE, ERR, BUSY and DONE change, TERM_FOUND and TRUNC stay. -/
def Status.raised (e : CommandError) (st : Status) : Status :=
  { st with errcode := e.code, err := true, busy := false, done := true }

/-- The flags DES writes before it completes (R127): `TERM_FOUND <- found` (R130, R133) and `TRUNC <- (not found) and
(N mod 8 != 0)` (R131), for a bitstream of `n` bits. -/
def Status.decoded (found : Bool) (n : Nat) (st : Status) : Status :=
  { st with termFound := found, trunc := !found && decide (n % 8 ≠ 0) }

/-- The legal values of STATUS (R24): busy means every other field 0; ERR exactly when ERRCODE is not 0; TERM_FOUND and
TRUNC only without an error, and not both. -/
abbrev Status.Legal (st : Status) : Prop :=
  (st.busy = true → st = Status.started) ∧
  (st.err = false ↔ st.errcode = 0) ∧
  (st.termFound = true ∨ st.trunc = true → st.err = false) ∧
  ¬ (st.termFound = true ∧ st.trunc = true)

end Sys2Proof.Machine
end

