-- ==== Sys2Proof/Machine/Ops.lean ====
section
/-! DEFINITION. The shared operations: reading and writing the elements of a buffer (10_state.md R31 to R35), the two
character conversions (00_scope.md R12) and the carrier byte's (42_channel_embedder.md R154, R161), how a command starts
(40_command_control.md R102), ends with success (R106) or with an error (60_exceptions.md R184), and reset (R201). -/

namespace Sys2Proof.Machine

/-! ### Buffers -/

/-- What a buffer holds at index `i`: the element last written there, `none` if nothing has been written since reset. -/
def Buffer.read? {α : Type} : Buffer α → Nat → Option α
  | [], _ => none
  | (j, v) :: rest, i => if i = j then some v else Buffer.read? rest i

/-- Write element `i`, keeping the indices rising. -/
def Buffer.write {α : Type} : Buffer α → Nat → α → Buffer α
  | [], i, v => [(i, v)]
  | (j, w) :: rest, i, v =>
    if i < j then (i, v) :: (j, w) :: rest
    else if i = j then (i, v) :: rest
    else (j, w) :: Buffer.write rest i v

/-- Write the elements of a list at `i`, `i + 1`, ... in order. -/
def Buffer.writeFrom {α : Type} (b : Buffer α) (i : Nat) : List α → Buffer α
  | [] => b
  | v :: vs => Buffer.writeFrom (b.write i v) (i + 1) vs

/-- The canonical form of a buffer: indices strictly rising. -/
abbrev Buffer.Rising {α : Type} (b : Buffer α) : Prop := b.Pairwise fun x y => x.1 < y.1

/-- Every listed element exists: its index is below the capacity `n`. -/
abbrev Buffer.Below {α : Type} (b : Buffer α) (n : Nat) : Prop := ∀ c ∈ b, c.1 < n

/-- The canonical form of the four buffers. -/
abbrev Memory.wf (m : Memory) : Prop := m.msg.Rising ∧ m.txt.Rising ∧ m.bit.Rising ∧ m.pix.Rising

/-- Every listed element is one the configuration has (R31 to R34). -/
abbrev Memory.InBounds (m : Memory) (c : Config) : Prop :=
  m.msg.Below c.msgCap ∧ m.txt.Below c.txtCap ∧ m.bit.Below c.bitCap ∧ m.pix.Below c.pixCap

/-- Read element `i`: what is written there, or else the next free value (R35). `d` free values have been drawn before; the
second answer is how many have been after. -/
def Buffer.draw {α : Type} (free : Nat → α) (b : Buffer α) (i d : Nat) : α × Nat :=
  match b.read? i with
  | some v => (v, d)
  | none => (free d, d + 1)

/-- Read the `n` elements from index `i` on, in increasing order, each read on its own (R35). -/
def Buffer.drawRun {α : Type} (free : Nat → α) (b : Buffer α) : (i n d : Nat) → List α × Nat
  | _, 0, d => ([], d)
  | i, n + 1, d =>
    match b.draw free i d with
    | (v, d1) =>
      match Buffer.drawRun free b (i + 1) n d1 with
      | (vs, d2) => (v :: vs, d2)

/-! ### Values -/

/-- `bits8(c)` (R12): most significant bit first. -/
def bits8 (c : Byte) : List Bit :=
  [c.getLsbD 7, c.getLsbD 6, c.getLsbD 5, c.getLsbD 4, c.getLsbD 3, c.getLsbD 2, c.getLsbD 1, c.getLsbD 0]

/-- `byte8(g)` (R12): the group read as an unsigned number, its first bit the most significant. -/
def byte8 (g : List Bit) : Byte :=
  BitVec.ofNat 8 (g.foldl (fun acc x => 2 * acc + x.toNat) 0)

/-- `(b & 0xFE) | x` (R154): the carrier byte with bit 0 replaced. -/
def injectBit (b : Byte) (x : Bit) : Byte := (b &&& 0xFE) ||| (BitVec.ofBool x).setWidth 8

/-- `b[0]` (R161): the bit a carrier byte carries. -/
def carriedBit (b : Byte) : Bit := b.getLsbD 0

/-! ### The life of a command -/

/-- `start_command(w)` (R102): latch the word, `STATUS <- 1`. It does not decode the word. -/
def startCommand (w : Word) (s : State) : State := { s with pending := w, status := Status.started }

/-- `complete` (R106). -/
def complete (s : State) : State := { s with status := s.status.completed }

/-- `raise E` (R184): STATUS alone changes. There is no trap, so nothing is saved and no control is transferred (R190),
and there is no return from it (R191): the error stays in STATUS until the next accepted CMD write or reset. -/
def raise (e : CommandError) (s : State) : State := { s with status := s.status.raised e }

/-! ### Reset -/

/-- The reset input (R201): the whole state goes to the values of R200. A pending command and a held transaction are
abandoned. The configuration is constant (R29). The model's counter goes on, so that what is read afterwards is fresh (R35,
log 4); the host program starts again with its block (R201, R205, log 8); the inputs still to come are the caller's to
keep (log 6). -/
def takeReset (s : State) : State :=
  { State.reset with
    cfg := s.cfg
    draws := s.draws
    host := HostState.start s.host.program
    inputs := s.inputs }

end Sys2Proof.Machine
end

