-- ==== Sys2Proof/Machine/Operands.lean ====
section
/-! DEFINITION. The implicit operands of the commands (30_encoding.md R85): the terminator, the length registers with their
capacity checks, and the sequences a command reads from the buffers and writes to them. -/

namespace Sys2Proof.Machine

/-- `TERM_BYTE` (00_scope.md R8): the code point of `#`. PRESUMED (log 11). -/
def termByte : Byte := 0x23

/-- `TERM` (R8): `"####"`. -/
def terminator : List Byte := List.replicate 4 termByte

/-! ### Lengths (R25 to R28) and their checks against the capacities (60_exceptions.md R182) -/

/-- `MSG_LEN > MSG_CAP` (R121). -/
def State.msgLenOut (s : State) : Bool := decide (s.cfg.msgCap < s.msgLen.toNat)

/-- `BIT_LEN > BIT_CAP` (R134, R151). -/
def State.bitLenOut (s : State) : Bool := decide (s.cfg.bitCap < s.bitLen.toNat)

/-- `PIX_LEN > PIX_CAP` (R151, R160). -/
def State.pixLenOut (s : State) : Bool := decide (s.cfg.pixCap < s.pixLen.toNat)

/-! ### Operands of SER (R120) -/

/-- `MSG[0 .. L-1] ++ TERM`, and the free values drawn by reading it. Each element of MSG is read once. -/
def State.messageWithTerminator (s : State) : List Byte × Nat :=
  match s.mem.msg.drawRun Config.freeByte 0 s.msgLen.toNat s.draws with
  | (m, d) => (m ++ terminator, d)

/-- `bits8(S[0]) ++ bits8(S[1]) ++ ...` (R123). -/
def bitstreamOf (chars : List Byte) : List Bit := chars.flatMap bits8

/-! ### Operands of DES (R127) -/

/-- `len(R) >= 4 and last4(R) = TERM` (R129). -/
def endsWithTerminator (r : List Byte) : Bool := decide (4 ≤ r.length) && r.drop (r.length - 4) == terminator

/-- The decode loop (R127, R128, R129), from group `k` on with `n` groups left and the characters `r` decoded so far: the
characters, whether the terminator was found, and the free values drawn. -/
def decodeGroups (bit : Buffer Bit) : (n k : Nat) → (r : List Byte) → (d : Nat) → List Byte × Bool × Nat
  | 0, _, r, d => (r, false, d)
  | n + 1, k, r, d =>
    match bit.drawRun Config.freeBit (8 * k) 8 d with
    | (g, d1) =>
      if endsWithTerminator (r ++ [byte8 g]) then (r ++ [byte8 g], true, d1)
      else decodeGroups bit n (k + 1) (r ++ [byte8 g]) d1

/-- The characters DES decodes from the full groups of `BIT[0 .. BIT_LEN-1]` (R128, R131). -/
def State.decodedCharacters (s : State) : List Byte × Bool × Nat :=
  decodeGroups s.mem.bit (s.bitLen.toNat / 8) 0 [] s.draws

/-! ### Operands of EMB (R150) and EXT (R159) -/

/-- The injection loop (R154), from carrier `i` on with `n` bits left. Each carrier byte and each bit is read once. -/
def embedBits (bit : Buffer Bit) : (n i : Nat) → (pix : Buffer Byte) → (d : Nat) → Buffer Byte × Nat
  | 0, _, pix, d => (pix, d)
  | n + 1, i, pix, d =>
    match pix.draw Config.freeByte i d with
    | (b, d1) =>
      match bit.draw Config.freeBit i d1 with
      | (x, d2) => embedBits bit n (i + 1) (pix.write i (injectBit b x)) d2

/-- PIX after `PIX[i] <- (PIX[i] & 0xFE) | BIT[i]` for every `i < BIT_LEN` (R154). -/
def State.embeddedPixels (s : State) : Buffer Byte × Nat :=
  embedBits s.mem.bit s.bitLen.toNat 0 s.mem.pix s.draws

/-- `PIX[0][0], PIX[1][0], ...` up to `PIX_LEN` (R161). Each carrier byte is read once. -/
def State.carriedBits (s : State) : List Bit × Nat :=
  match s.mem.pix.drawRun Config.freeByte 0 s.pixLen.toNat s.draws with
  | (bs, d) => (bs.map carriedBit, d)

end Sys2Proof.Machine
end

