-- ==== Sys2Proof/Machine/Codec.lean ====
section
/-! DEFINITION. The bitstream codec: the meanings of SER and DES (41_bitstream_codec.md). -/

namespace Sys2Proof.Machine

/-- SER (R120): LengthRange when `MSG_LEN > MSG_CAP` (R121); otherwise `BIT[0 ..]` gets the message and the terminator,
most significant bit first (R123), and `BIT_LEN <- 8 * (MSG_LEN + 4)`. -/
def execSer (s : State) : Host.Outcome State Fault Refusal :=
  if s.msgLenOut then .next (raise .lengthRange s)
  else
    match s.messageWithTerminator with
    | (chars, d) =>
      .next (complete { s with
        mem := { s.mem with bit := s.mem.bit.writeFrom 0 (bitstreamOf chars) }
        bitLen := BitVec.ofNat 32 (8 * (s.msgLen.toNat + 4))
        draws := d })

/-- DES (R127): LengthRange when `BIT_LEN > BIT_CAP` (R134); otherwise every decoded character goes to TXT, the
terminator's included (R132), `TXT_LEN` is their number, less 4 when the terminator was found (R130, R133), and TERM_FOUND
and TRUNC are set (R130, R131). -/
def execDes (s : State) : Host.Outcome State Fault Refusal :=
  if s.bitLenOut then .next (raise .lengthRange s)
  else
    match s.decodedCharacters with
    | (chars, found, d) =>
      .next (complete { s with
        mem := { s.mem with txt := s.mem.txt.writeFrom 0 chars }
        txtLen := BitVec.ofNat 32 (if found then chars.length - 4 else chars.length)
        status := s.status.decoded found s.bitLen.toNat
        draws := d })

end Sys2Proof.Machine
end

