-- ==== Sys2Proof/Machine/Embedder.lean ====
section
/-! DEFINITION. The channel embedder: the meanings of EMB and EXT (42_channel_embedder.md). -/

namespace Sys2Proof.Machine

/-- EMB (R150): LengthRange when `BIT_LEN > BIT_CAP` or `PIX_LEN > PIX_CAP` (R151), checked before CapacityExceeded when
`BIT_LEN > PIX_LEN` (R153, R188); otherwise bit 0 of `PIX[0 .. BIT_LEN-1]` is replaced (R154). -/
def execEmb (s : State) : Host.Outcome State Fault Refusal :=
  if s.bitLenOut || s.pixLenOut then .next (raise .lengthRange s)
  else if s.pixLen.toNat < s.bitLen.toNat then .next (raise .capacityExceeded s)
  else
    match s.embeddedPixels with
    | (pix, d) => .next (complete { s with mem := { s.mem with pix := pix }, draws := d })

/-- EXT (R159): LengthRange when `PIX_LEN > PIX_CAP` (R160); otherwise `BIT[i] <- PIX[i][0]` for every `i < PIX_LEN`
(R161) and `BIT_LEN <- PIX_LEN` (R162). -/
def execExt (s : State) : Host.Outcome State Fault Refusal :=
  if s.pixLenOut then .next (raise .lengthRange s)
  else
    match s.carriedBits with
    | (bits, d) =>
      .next (complete { s with
        mem := { s.mem with bit := s.mem.bit.writeFrom 0 bits }
        bitLen := s.pixLen
        draws := d })

end Sys2Proof.Machine
end

