-- ==== Sys2Proof/Machine/Dispatch.lean ====
section
/-! DEFINITION. The dispatch of `execute` (40_command_control.md R105): one arm per command. -/

namespace Sys2Proof.Machine

def exec (i : Instr) (s : State) : Host.Outcome State Fault Refusal :=
  match i with
  | .ser => Sys2Proof.Machine.execSer s
  | .des => Sys2Proof.Machine.execDes s
  | .emb => Sys2Proof.Machine.execEmb s
  | .ext => Sys2Proof.Machine.execExt s

end Sys2Proof.Machine
end

