-- ==== Sys2Proof/Machine/Engine.lean ====
section
/-! DEFINITION. The ENGINE's step (40_command_control.md R104, R105): the pending word is decoded and the command it names
runs whole, or the word is illegal and ends in `IllegalCommand` (30_encoding.md R84, 60_exceptions.md R181). -/

namespace Sys2Proof.Machine

/-- The command word the ENGINE runs: PENDING (10_state.md R30). The block fetches nothing from memory (20_memory.md R69). -/
def fetchWord (s : State) : Word := s.pending

/-- `execute(w)` (R105). -/
def execute (w : Word) (s : State) : Host.Outcome State Fault Refusal :=
  match decodeWord w with
  | .ok i => exec i s
  | .error _ => .next (raise .illegalCommand s)

/-- The ENGINE's step (R104): it exists exactly while `BUSY = 1`; the caller asks for it only then. -/
def engineStep (s : State) : Host.Outcome State Fault Refusal := execute (fetchWord s) s

/-- An accepted CMD write of `w` and then the ENGINE's step (R100, R102, R104): one whole command, from idle to ended. -/
def runCommand (w : Word) (s : State) : Host.Outcome State Fault Refusal := engineStep (startCommand w s)

end Sys2Proof.Machine
end

