-- ==== Sys2Proof/Machine/Bus.lean ====
section
/-! DEFINITION. The host bus port (20_memory.md): the register map (10_state.md R22), the windows (R56 to R58), MemRead
(R60), MemWrite (R61), bus errors (R59) and which transactions are held while the ENGINE is busy (R62). -/

namespace Sys2Proof.Machine

/-! ### The register map -/

/-- The ten registers (R22). -/
inductive RegName where
  | cmd
  | status
  | msgLen
  | bitLen
  | pixLen
  | txtLen
  | capMsg
  | capTxt
  | capBit
  | capPix
deriving DecidableEq, Repr

/-- Access classes (R22): a write to an RO register and a read of a WO register are bus errors. -/
inductive Access where
  | wo
  | ro
  | rw
deriving DecidableEq, Repr

/-- The offset of each register (R22). -/
def RegName.offset : RegName → Word
  | .cmd => 0x000
  | .status => 0x004
  | .msgLen => 0x008
  | .bitLen => 0x00C
  | .pixLen => 0x010
  | .txtLen => 0x014
  | .capMsg => 0x018
  | .capTxt => 0x01C
  | .capBit => 0x020
  | .capPix => 0x024

/-- The access class of each register (R22). -/
def RegName.access : RegName → Access
  | .cmd => .wo
  | .status => .ro
  | .msgLen => .rw
  | .bitLen => .rw
  | .pixLen => .rw
  | .txtLen => .ro
  | .capMsg => .ro
  | .capTxt => .ro
  | .capBit => .ro
  | .capPix => .ro

/-- Every register, in the order of the map. -/
def RegName.all : List RegName :=
  [.cmd, .status, .msgLen, .bitLen, .pixLen, .txtLen, .capMsg, .capTxt, .capBit, .capPix]

/-- The register at an offset, if there is one: every other offset of region 0 is unmapped (R22, R56). -/
def registerAt (addr : Word) : Option RegName := RegName.all.find? fun r => r.offset == addr

/-- What a register reads as; `none` for CMD, which holds no value a host can read (R23). -/
def readRegister (s : State) : RegName → Option Word
  | .cmd => none
  | .status => some s.status.toWord
  | .msgLen => some s.msgLen
  | .bitLen => some s.bitLen
  | .pixLen => some s.pixLen
  | .txtLen => some s.txtLen
  | .capMsg => some (BitVec.ofNat 32 s.cfg.msgCap)
  | .capTxt => some (BitVec.ofNat 32 s.cfg.txtCap)
  | .capBit => some (BitVec.ofNat 32 s.cfg.bitCap)
  | .capPix => some (BitVec.ofNat 32 s.cfg.pixCap)

/-- A host write to a register (R61); `none` for the read-only ones. -/
def writeRegister (s : State) (v : Word) : RegName → Option State
  | .cmd => some (startCommand v s)
  | .msgLen => some { s with msgLen := v }
  | .bitLen => some { s with bitLen := v }
  | .pixLen => some { s with pixLen := v }
  | .status => none
  | .txtLen => none
  | .capMsg => none
  | .capTxt => none
  | .capBit => none
  | .capPix => none

/-! ### The windows -/

/-- The four windows (R56). -/
inductive Window where
  | msg
  | txt
  | bit
  | pix
deriving DecidableEq, Repr

/-- `addr[31:28]` (R56). -/
def regionOf (addr : Word) : BitVec 4 := addr.extractLsb' 28 4

/-- `addr[27:0]` (R57). -/
def windowOffset (addr : Word) : Nat := (addr.extractLsb' 0 28).toNat

/-- The window of a region, if it has one (R56). -/
def windowAt (addr : Word) : Option Window :=
  match (regionOf addr).toNat with
  | 1 => some .msg
  | 2 => some .txt
  | 3 => some .bit
  | 4 => some .pix
  | _ => none

/-- The window's size in bytes, `S` (R56). -/
def Window.size (c : Config) : Window → Nat
  | .msg => c.msgCap
  | .txt => c.txtCap
  | .bit => (c.bitCap + 7) / 8
  | .pix => c.pixCap

/-- Does the host write this window (R57)? The TXT window is read-only. -/
def Window.hostWrites : Window → Bool
  | .msg => true
  | .txt => false
  | .bit => true
  | .pix => true

/-- How many bits of `BITBYTE[j]` exist (R33): the first 8, or fewer in the last byte. -/
def bitsInByte (c : Config) (j : Nat) : Nat := min 8 (c.bitCap - 8 * j)

/-- Read byte `j` of a window that has it. `BITBYTE[j]` packs `BIT[8j ..]`, most significant bit first; bits that do not
exist read 0 (R33, R55). -/
def readLane (c : Config) (m : Memory) (w : Window) (j d : Nat) : Byte × Nat :=
  match w with
  | .msg => m.msg.draw Config.freeByte j d
  | .txt => m.txt.draw Config.freeByte j d
  | .pix => m.pix.draw Config.freeByte j d
  | .bit =>
    match m.bit.drawRun Config.freeBit (8 * j) (bitsInByte c j) d with
    | (g, d1) => (byte8 (g ++ List.replicate (8 - bitsInByte c j) false), d1)

/-- Read the `n` bytes of a window from byte `j` on. -/
def readLanes (c : Config) (m : Memory) (w : Window) : (j n d : Nat) → List Byte × Nat
  | _, 0, d => ([], d)
  | j, n + 1, d =>
    match readLane c m w j d with
    | (b, d1) =>
      match readLanes c m w (j + 1) n d1 with
      | (bs, d2) => (b :: bs, d2)

/-- Write byte `j` of a window that has it; bits that do not exist are ignored (R33, R61). TXT is not written (R57). -/
def writeLane (c : Config) (m : Memory) (w : Window) (j : Nat) (v : Byte) : Memory :=
  match w with
  | .msg => { m with msg := m.msg.write j v }
  | .txt => m
  | .pix => { m with pix := m.pix.write j v }
  | .bit => { m with bit := m.bit.writeFrom (8 * j) ((bits8 v).take (bitsInByte c j)) }

/-- Write the bytes of a list to a window from byte `j` on. -/
def writeLanes (c : Config) (w : Window) (m : Memory) (j : Nat) : List Byte → Memory
  | [] => m
  | v :: vs => writeLanes c w (writeLane c m w j v) (j + 1) vs

/-- How many of the four lanes at `off` exist in a window of size `size` (R58). -/
def lanesAt (size off : Nat) : Nat := min 4 (size - off)

/-- `window_read` (R60): `none` is `ERROR`; lanes that do not exist read 0 (R58); little-endian (R53). -/
def windowRead (s : State) (w : Window) (off : Nat) : Option (Word × Nat) :=
  if w.size s.cfg ≤ off then none
  else
    match readLanes s.cfg s.mem w off (lanesAt (w.size s.cfg) off) s.draws with
    | (bs, d) => some (wordOfBytes (bs.getD 0 0) (bs.getD 1 0) (bs.getD 2 0) (bs.getD 3 0), d)

/-- `window_write` (R61): `none` is `ERROR`; lanes that do not exist are ignored (R58). -/
def windowWrite (s : State) (w : Window) (off : Nat) (v : Word) : Option State :=
  if w.size s.cfg ≤ off then none
  else if w.hostWrites then
    some { s with mem := writeLanes s.cfg w s.mem off ((bytesOfWord v).take (lanesAt (w.size s.cfg) off)) }
  else none

/-! ### The access primitives -/

/-- `MemRead(addr, 4)` (R60) after its size, alignment and busy checks: the value and the free values drawn, or `none` for
`ERROR`. -/
def memRead (s : State) (addr : Word) : Option (Word × Nat) :=
  if regionOf addr = 0 then ((registerAt addr).bind (readRegister s)).map (·, s.draws)
  else (windowAt addr).bind fun w => windowRead s w (windowOffset addr)

/-- `MemWrite(addr, 4, v)` (R61) after its size, alignment and busy checks: the state after it, or `none` for `ERROR`. -/
def memWrite (s : State) (addr v : Word) : Option State :=
  if regionOf addr = 0 then (registerAt addr).bind (writeRegister s v)
  else (windowAt addr).bind fun w => windowWrite s w (windowOffset addr) v

/-- An `ERROR` response (R59): no state changes; its `rdata` is a free word (log 7). -/
def busError (s : State) : Response × State :=
  (.error (Config.freeWord s.draws), { s with draws := s.draws + 1 })

/-- Is the transaction held (R62)? While `BUSY = 1`, every one is, but for a read of STATUS at 0x004, and but for the
malformed ones, which are answered at once. -/
def isHeld (tx : BusTx) (s : State) : Bool :=
  s.status.busy && tx.wellFormed && !(decide (tx.kind = .read) && decide (tx.addr = RegName.status.offset))

/-- The response to a transaction that is not held, and the state after it (R59 to R61). -/
def respond (tx : BusTx) (s : State) : Response × State :=
  if tx.wellFormed then
    match tx.kind with
    | .read =>
      match memRead s tx.addr with
      | some (v, d) => (.okayRead v, { s with draws := d })
      | none => busError s
    | .write v =>
      match memWrite s tx.addr v with
      | some t => (.okayWrite, t)
      | none => busError s
  else busError s

/-- Where an offset of the block lies on the platform's bus (20_memory.md R56, 10_state.md R37). The block never uses it. -/
def platformAddress (c : Config) (offset : Word) : Nat := c.blockBase + offset.toNat

end Sys2Proof.Machine
end

