-- ==== Sys2Proof/Machine/Hasm.lean ====
section
/-! DEFINITION. The host side of the port: how a transaction is issued, held and answered (20_memory.md R50, R62), and
the host program notation HASM (30_encoding.md R87 to R93) with its pseudo-instructions. The host program is the host's,
not the block's (10_state.md R37). -/

namespace Sys2Proof.Machine

/-! ### Issuing a transaction and taking its response -/

/-- Load a host register with read data (R88); a write has no register. -/
def HostState.load (h : HostState) (dst : Option Reg) (v : Word) : HostState :=
  match dst with
  | some r => { h with regs := h.regs.set r.val v }
  | none => h

/-- The host program takes the response to its bus statement (R88): read data goes to the register, the program goes on
with the next line, and an `ERROR` stops it. On `ERROR` the register gets the unspecified `rdata` (log 8). -/
def HostState.receive (h : HostState) (dst : Option Reg) : Response → HostState
  | .okayRead v => { h.load dst v with pc := h.pc + 1 }
  | .okayWrite => { h with pc := h.pc + 1 }
  | .error v => { h.load dst v with stopped := true }

/-- The port drives a response; the host program takes it if the transaction was its own. -/
def deliver (o : Origin) (r : Response) (s : State) : State :=
  match o with
  | .stream => { s with response := some r }
  | .program dst => { s with response := some r, host := s.host.receive dst r }

/-- Answer a transaction and deliver the response. -/
def answer (h : Held) (s : State) : State :=
  match respond h.tx s with
  | (r, t) => deliver h.origin r t

/-- The host issues a transaction (R50): it is held (R62) or answered at once. -/
def issue (h : Held) (s : State) : State :=
  if isHeld h.tx s then { s with held := some h } else answer h s

/-! ### The host program -/

/-- The first statement of the lines from index `k` on, with its index (R87: a label names the next statement). -/
def firstStmt : List Line → Nat → Option (Nat × Stmt)
  | [], _ => none
  | .label _ :: rest, k => firstStmt rest (k + 1)
  | .stmt st :: _, k => some (k, st)

/-- Where a label stands, counting lines from `k`; the first place, if it stands more than once (log 8). -/
def labelIndex (l : Label) : List Line → Nat → Option Nat
  | [], _ => none
  | .label l' :: rest, k => if l = l' then some k else labelIndex l rest (k + 1)
  | .stmt _ :: rest, k => labelIndex l rest (k + 1)

/-- Go on with the next line (R89). -/
def nextLine (s : State) : State := { s with host := { s.host with pc := s.host.pc + 1 } }

/-- Branch to a label (R89). -/
def branchTo (l : Label) (s : State) : Host.Outcome State Fault Refusal :=
  match labelIndex l s.host.program 0 with
  | some k => .next { s with host := { s.host with pc := k } }
  | none => .refused .undefinedLabel

/-- Branch to a label when the condition holds, else go on with the next line (R89). -/
def branchIf (c : Bool) (l : Label) (s : State) : Host.Outcome State Fault Refusal :=
  if c then branchTo l s else .next (nextLine s)

/-- Run one statement (R88, R89, R94). -/
def runStmt (st : Stmt) (s : State) : Host.Outcome State Fault Refusal :=
  match st with
  | .wr a v => .next (issue ⟨⟨.write v, a, 4⟩, .program none⟩ s)
  | .rd a r => .next (issue ⟨⟨.read, a, 4⟩, .program (some r)⟩ s)
  | .cmd i => .next (issue ⟨⟨.write (encode i), RegName.cmd.offset, 4⟩, .program none⟩ s)
  | .bset r b l => branchIf (s.host.regs[r.val].getLsbD b.val) l s
  | .bclr r b l => branchIf (!s.host.regs[r.val].getLsbD b.val) l s
  | .jmp l => branchTo l s
  | .halt => .next { s with host := { s.host with stopped := true } }

/-- The host program's move: its next statement. A program that has stopped, or has no statement left, issues nothing
(log 8). -/
def hostMove (s : State) : Host.Outcome State Fault Refusal :=
  if s.host.stopped then .next s
  else
    match firstStmt (s.host.program.drop s.host.pc) s.host.pc with
    | some (k, st) => runStmt st { s with host := { s.host with pc := k } }
    | none => .next s

/-! ### Address symbols and pseudo-instructions (R87, R90 to R93) -/

/-- `MSG+n`, `TXT+n`, `BIT+n`, `PIX+n` (R87). -/
def Window.address (w : Window) (n : Word) : Word :=
  match w with
  | .msg => 0x10000000 + n
  | .txt => 0x20000000 + n
  | .bit => 0x30000000 + n
  | .pix => 0x40000000 + n

/-- `POLL rN` (R90), with a label of its own. -/
def pollLines (k : Nat) (r : Reg) : List Line :=
  [.label (.poll k), .stmt (.rd RegName.status.offset r), .stmt (.bset r 0 (.poll k))]

/-- `RUN X, rN` (R91). -/
def runLines (i : Instr) (k : Nat) (r : Reg) : List Line := .stmt (.cmd i) :: pollLines k r

/-- `CHECK rN, label` (R92). -/
def checkLines (r : Reg) (l : Label) : List Line := [.stmt (.bset r 2 l)]

/-- `ENCODE rN` (R93), the k-th use. -/
def encodeLines (k : Nat) (r : Reg) : List Line :=
  runLines .ser (2 * k) r ++ checkLines r (.encDone k) ++ runLines .emb (2 * k + 1) r ++ [.label (.encDone k)]

/-- `DECODE rN` (R93), the k-th use; ENCODE and DECODE of one program use different numbers. -/
def decodeLines (k : Nat) (r : Reg) : List Line :=
  runLines .ext (2 * k) r ++ checkLines r (.decDone k) ++ runLines .des (2 * k + 1) r ++ [.label (.decDone k)]

end Sys2Proof.Machine
end

