-- ==== Sys2Proof/Machine/Agents.lean ====
section
/-! DEFINITION. Which agent moves (10_state.md R20, 20_memory.md R65, 40_command_control.md R104, log 6). Every step is one
event of the one total order of R65: a host transaction, an ENGINE step, a statement of the host program, a reset, or a
moment in which the agent whose turn it is has nothing to do. -/

namespace Sys2Proof.Machine

/-- The block's move: the ENGINE's step while `BUSY = 1` (R104); otherwise a transaction that was held proceeds, as if
issued now (R62); otherwise nothing. -/
def blockMove (s : State) : Host.Outcome State Fault Refusal :=
  if s.status.busy then engineStep s
  else
    match s.held with
    | some h => .next (answer h { s with held := none })
    | none => .next s

/-- One step of the whole: reset takes precedence over everything (R201). A host whose transaction is held issues nothing
(R50), so the block moves and the host's input waits. With no input left the block moves first, then the host program
(log 6). -/
def turn (s : State) : Host.Outcome State Fault Refusal :=
  match s.inputs with
  | [] => if s.status.busy || s.held.isSome then blockMove s else hostMove s
  | .reset :: rest => .next (takeReset { s with inputs := rest })
  | .blockTurn :: rest => blockMove { s with inputs := rest }
  | .issue tx :: rest =>
    if s.held.isSome then blockMove s else .next (issue ⟨tx, .stream⟩ { s with inputs := rest })
  | .hostTurn :: rest => if s.held.isSome then blockMove s else hostMove { s with inputs := rest }

end Sys2Proof.Machine
end

