-- ==== Sys2Proof/Machine/Step.lean ====
section
/-! DEFINITION. The step, with its three outcomes, and the placing of a command word where the next step runs it. -/

namespace Sys2Proof.Machine

/-- One step. A configuration that breaks K1 to K4 is refused (00_scope.md R6). -/
def step (s : State) : Host.Outcome State Fault Refusal :=
  if s.cfg.Legal then turn s else .refused .illegalConfiguration

/-- `s` with the `nbits`-bit word `w` as the pending command and the ENGINE next to move: what an accepted CMD write leaves
(40_command_control.md R102), with the block's turn put first (log 10). -/
def State.withFetchWord (s : State) (nbits w : Nat) : State :=
  { startCommand (BitVec.ofNat 32 (w % 2 ^ nbits)) s with inputs := .blockTurn :: s.inputs }

end Sys2Proof.Machine
end

