-- ==== Sys2Proof/Safety.lean ====
section
/-! DEFINITION. What claims call a good state and a safe step. The spec names no fault that stops the block (60_exceptions.md
R190): a step is safe when it answers a next state. -/

namespace Sys2Proof.Machine

/-- Is a held transaction one the port holds: well formed, and no read of STATUS (20_memory.md R62)? -/
abbrev Held.Legal (h : Held) : Prop :=
  h.tx.wellFormed = true ∧ ¬ (h.tx.kind = .read ∧ h.tx.addr = RegName.status.offset)

/-- The states the rules of the spec allow: a legal configuration (00_scope.md R6), buffers in canonical form with no element
the configuration lacks (10_state.md R31 to R34), a legal STATUS (R24) with an error code of this revision (60_exceptions.md
R180), `TXT_LEN <= TXT_CAP` (R28), and on the port nothing that is never held (20_memory.md R62). -/
structure State.Inv (s : State) : Prop where
  cfg_legal : s.cfg.Legal
  mem_wf : s.mem.wf
  mem_bounds : s.mem.InBounds s.cfg
  status_legal : s.status.Legal
  errcode_known : s.status.errcode.toNat ≤ 3
  txtLen_le : s.txtLen.toNat ≤ s.cfg.txtCap
  held_legal : ∀ h, s.held = some h → h.Legal

/-! ### The words the claims use -/

/-- A command is running: STATUS is what `start_command` left (40_command_control.md R102). -/
abbrev Running (s : State) : Prop := s.status = Status.started

/-- The command words of 30_encoding.md R82, written out. -/
def commandWord : Instr → Word
  | .ser => 0x00000001
  | .des => 0x00000002
  | .emb => 0x00000003
  | .ext => 0x00000004

/-- `"####"`, written out (00_scope.md R8). -/
def hashes : List Byte := [0x23, 0x23, 0x23, 0x23]

/-- `"####"` stands at index `q` of `cs`. -/
abbrev HashesAt (cs : List Byte) (q : Nat) : Prop := (cs.drop q).take 4 = hashes

/-- `q` is the least index at which `"####"` stands in `cs`. -/
abbrev FirstHashes (cs : List Byte) (q : Nat) : Prop := HashesAt cs q ∧ ∀ p, p < q → ¬ HashesAt cs p

/-- `vs` is what reading the buffer's elements `0, 1, ...` may give: each written element its value, each unwritten one any
value (10_state.md R35). -/
abbrev ReadsAs {α : Type} (b : Buffer α) (vs : List α) : Prop :=
  ∀ k v, k < vs.length → b.read? k = some v → vs[k]? = some v

/-- The two states agree on what the embedder and the codec work on: BIT, BIT_LEN, PIX, PIX_LEN and the configuration.
Anything the host does that writes none of them keeps this. -/
abbrev SameCarrier (a s : State) : Prop :=
  a.cfg = s.cfg ∧ a.mem.bit = s.mem.bit ∧ a.bitLen = s.bitLen ∧ a.mem.pix = s.mem.pix ∧ a.pixLen = s.pixLen

/-- The outcome of DES on a bitstream that holds the message `m` and the terminator (41_bitstream_codec.md R135): the part
of `m` before the first `"####"`, which is all of it exactly when `m` holds no `"####"` and does not end with `#`. -/
abbrev MessageComesBack (m : List Byte) (u : State) : Prop :=
  ∃ q, q ≤ m.length ∧ FirstHashes (m ++ hashes) q ∧ u.txtLen.toNat = q ∧
    (∀ j, j < q → u.mem.txt.read? j = m[j]?) ∧ u.status.toWord = 0x102 ∧
    (q = m.length ↔ (∀ p, ¬ HashesAt m p) ∧ m.getLast? ≠ some 0x23)

/-- Where a window begins: its region number in `addr[31:28]` (20_memory.md R56). -/
def windowBase : Window → Nat
  | .msg => 0x10000000
  | .txt => 0x20000000
  | .bit => 0x30000000
  | .pix => 0x40000000

/-- An address that is unmapped (20_memory.md R56, R57), for aligned addresses. -/
abbrev Unmapped (c : Config) (a : Word) : Prop :=
  (a.toNat / 2 ^ 28 = 0 ∧ 0x024 < a.toNat) ∨
  (a.toNat / 2 ^ 28 = 1 ∧ c.msgCap ≤ a.toNat % 2 ^ 28) ∨
  (a.toNat / 2 ^ 28 = 2 ∧ c.txtCap ≤ a.toNat % 2 ^ 28) ∨
  (a.toNat / 2 ^ 28 = 3 ∧ (c.bitCap + 7) / 8 ≤ a.toNat % 2 ^ 28) ∨
  (a.toNat / 2 ^ 28 = 4 ∧ c.pixCap ≤ a.toNat % 2 ^ 28) ∨
  5 ≤ a.toNat / 2 ^ 28

/-- The transactions that get `ERROR` (20_memory.md R59): a wrong size, a misaligned or unmapped address, a read of CMD, a
write to STATUS, TXT_LEN, a CAP register or the TXT window. -/
abbrev BadTransaction (c : Config) (tx : BusTx) : Prop :=
  tx.size ≠ 4 ∨ tx.addr.toNat % 4 ≠ 0 ∨ Unmapped c tx.addr ∨
  (tx.kind = .read ∧ tx.addr = 0x000) ∨
  (tx.kind ≠ .read ∧
    (tx.addr = 0x004 ∨ tx.addr = 0x014 ∨ tx.addr = 0x018 ∨ tx.addr = 0x01C ∨ tx.addr = 0x020 ∨ tx.addr = 0x024 ∨
      tx.addr.toNat / 2 ^ 28 = 2))

/-! ### The host's transactions -/

/-- `st`, on line `k`, is the statement the host program runs next: from its position on, only labels stand before it
(30_encoding.md R87: a label names the next statement). -/
abbrev NextStmt (h : HostState) (k : Nat) (st : Stmt) : Prop :=
  h.pc ≤ k ∧ h.program[k]? = some (.stmt st) ∧ ∀ j, h.pc ≤ j → j < k → ∃ l, h.program[j]? = some (.label l)

/-- The label stands on line `j` of the program and on no other (R87). -/
abbrev LabelAt (p : List Line) (l : Label) (j : Nat) : Prop :=
  p[j]? = some (.label l) ∧ ∀ i, p[i]? = some (.label l) → i = j

/-- It is the host program's turn, and `ins` is what is left of the inputs after it (log 6). -/
abbrev HostTurn (s : State) (ins : List Input) : Prop :=
  s.held = none ∧ s.host.stopped = false ∧
    (s.inputs = [] ∧ s.status.busy = false ∧ ins = [] ∨ s.inputs = .hostTurn :: ins)

/-- The bus transaction of a statement (R88); a control statement has none (R89). -/
def stmtTx : Stmt → Option BusTx
  | .wr a v => some ⟨.write v, a, 4⟩
  | .rd a _ => some ⟨.read, a, 4⟩
  | .cmd i => some ⟨.write (commandWord i), 0x000, 4⟩
  | .bset _ _ _ => none
  | .bclr _ _ _ => none
  | .jmp _ => none
  | .halt => none

/-- A transaction that the next step may answer: the one held, or, when none is, the host stream's next one or the one of
the host program's next statement (20_memory.md R50, R62, R67). -/
abbrev Issues (s : State) (tx : BusTx) : Prop :=
  (∃ o, s.held = some ⟨tx, o⟩) ∨
  (s.held = none ∧ ((∃ rest, s.inputs = .issue tx :: rest) ∨
    (s.host.stopped = false ∧ ∃ k st, NextStmt s.host k st ∧ stmtTx st = some tx)))

/-! ### Safe outcomes -/

/-- The outcome is a next state. -/
def Safe (o : Host.Outcome State Fault Refusal) : Prop := ∃ t, o = .next t

/-- A state from which `n` steps all answer a next state. -/
def SafeFor : Nat → State → Prop
  | 0, _ => True
  | n + 1, s => ∃ t, step s = .next t ∧ SafeFor n t

end Sys2Proof.Machine
end

