-- ==== Sys2Proof/Certificates/Slice0/Obligations.lean ====
section
/-! DEFINITION. The statements for the provers. Each docstring names the rules of spec/ the statement formalises. Elements of
a buffer that nothing has written read as free values (10_state.md R35, log 4): a statement that reads a buffer speaks of any
values such reads may give. -/

open Sys2Proof Sys2Proof.Machine

/-! ### Values and encodings -/

/-- 00_scope.md R12: `bits8` lists the bits most significant first, `byte8` weighs them 128 to 1, and `byte8(bits8(c)) =
c`. -/
def Obligations.CharacterBitsAreMostSignificantFirst : Prop :=
  (∀ c : Byte, bits8 c = [c.getLsbD 7, c.getLsbD 6, c.getLsbD 5, c.getLsbD 4, c.getLsbD 3, c.getLsbD 2, c.getLsbD 1,
    c.getLsbD 0]) ∧
  (∀ g0 g1 g2 g3 g4 g5 g6 g7 : Bit, (byte8 [g0, g1, g2, g3, g4, g5, g6, g7]).toNat =
    g0.toNat * 128 + g1.toNat * 64 + g2.toNat * 32 + g3.toNat * 16 + g4.toNat * 8 + g5.toNat * 4 + g6.toNat * 2 +
      g7.toNat) ∧
  (∀ c : Byte, byte8 (bits8 c) = c)

/-- 10_state.md R24: the places of the fields of STATUS in the word the host reads; bit 3 and bits 31:10 read 0. -/
def Obligations.StatusFieldsStandWhereTheMapSays : Prop :=
  ∀ st : Status,
    st.toWord.getLsbD 0 = st.busy ∧ st.toWord.getLsbD 1 = st.done ∧ st.toWord.getLsbD 2 = st.err ∧
    st.toWord.getLsbD 3 = false ∧ st.toWord.extractLsb' 4 4 = st.errcode ∧ st.toWord.getLsbD 8 = st.termFound ∧
    st.toWord.getLsbD 9 = st.trunc ∧ ∀ i, 10 ≤ i → st.toWord.getLsbD i = false

/-- 30_encoding.md R82: the four command words, and some that are illegal. A sanity check of words written out. -/
def Obligations.CommandWordsDecodeAsTheTableSays : Prop :=
  decodeWord 0x00000001 = .ok .ser ∧ decodeWord 0x00000002 = .ok .des ∧ decodeWord 0x00000003 = .ok .emb ∧
  decodeWord 0x00000004 = .ok .ext ∧
  decode [0x03, 0x00, 0x00, 0x00] = .ok (.emb, []) ∧
  decodeWord 0x00000000 = .error .illegalOpcode ∧ decodeWord 0x00000005 = .error .illegalOpcode ∧
  decodeWord 0x0000000F = .error .illegalOpcode ∧ decodeWord 0x00000011 = .error .reservedBitsSet ∧
  decodeWord 0x80000001 = .error .reservedBitsSet

/-- 30_encoding.md R83: a word selects a mnemonic exactly when it matches its row under the full mask; every word is one of
the four commands or illegal. -/
def Obligations.DecodingSelectsExactlyTheMatchingRow : Prop :=
  (∀ w i, decodeWord w = .ok i ↔ w &&& 0xFFFFFFFF = commandWord i) ∧
  (∀ w, (∃ e, decodeWord w = .error e) ↔ ∀ i, w &&& 0xFFFFFFFF ≠ commandWord i)

/-- Decode and encode agree, on any bytes (R80 to R83, 20_memory.md R53): the decoder reads a command from bytes exactly
when they begin with its encoding, and leaves the bytes after it. -/
def Obligations.DecodeAndEncodeAgree : Prop :=
  (∀ bs i rest, decode bs = .ok (i, rest) ↔ bs = encodeBytes i ++ rest) ∧ (∀ i, encode i = commandWord i)

/-- 30_encoding.md R84 and 60_exceptions.md R181: which words are illegal; an illegal word is accepted by the CMD write like
any other, and the ENGINE's step ends it with IllegalCommand, changing nothing else. -/
def Obligations.IllegalWordsEndInIllegalCommand : Prop :=
  (∀ w, (∃ e, decodeWord w = .error e) ↔
    (w.extractLsb' 4 28 ≠ 0 ∨ w.extractLsb' 0 4 = 0 ∨ 5 ≤ (w.extractLsb' 0 4).toNat)) ∧
  (∀ w s, (∃ e, decodeWord w = .error e) →
    memWrite s 0x000 w = some (startCommand w s) ∧ (startCommand w s).status.busy = true ∧
    ∃ st, engineStep (startCommand w s) = .next { s with pending := w, status := st } ∧ st.toWord = 0x16)

/-! ### The life of a command -/

/-- A step runs the decoded command (40_command_control.md R104, R105): while `BUSY = 1`, when it is the block's turn (no
input is left, or the block's turn comes, or the host's transaction is held), the step is `exec` of the command whose word
PENDING holds, with the turn used up; an illegal word raises IllegalCommand. -/
def Obligations.StepRunsThePendingCommand : Prop :=
  ∀ s : State, s.cfg.Legal → s.status.busy = true →
    ∀ ins, (s.inputs = [] ∧ ins = [] ∨ s.inputs = .blockTurn :: ins ∨
      (s.held.isSome = true ∧ ins = s.inputs ∧ ∃ x rest, s.inputs = x :: rest ∧ x ≠ .reset ∧ x ≠ .blockTurn)) →
    (∀ i, decode (bytesOfWord s.pending) = .ok (i, []) → i.wellFormed = true → step s = exec i { s with inputs := ins }) ∧
    (∀ e, decode (bytesOfWord s.pending) = .error e → step s = .next (raise .illegalCommand { s with inputs := ins }))

/-- 40_command_control.md R104: the ENGINE's step runs the pending word whole and always ends with `BUSY = 0` (and `DONE =
1`, R106, R184), whatever the word and the state. -/
def Obligations.EngineStepAlwaysEndsTheCommand : Prop :=
  ∀ s : State, ∃ t, engineStep s = .next t ∧ t.status.busy = false ∧ t.status.done = true ∧
    t.pending = s.pending ∧ t.cfg = s.cfg ∧ t.held = s.held ∧ t.response = s.response ∧ t.host = s.host ∧
    t.inputs = s.inputs

/-- 40_command_control.md R102: an accepted CMD write latches the word in PENDING and makes STATUS `0x0000_0001`; it does
not decode the word and touches no length register and no buffer. -/
def Obligations.CmdWriteLatchesTheWordAndSetsBusy : Prop :=
  ∀ (s : State) w rest, s.cfg.Legal → s.status.busy = false → s.held = none →
    s.inputs = .issue ⟨.write w, 0x000, 4⟩ :: rest →
    ∃ st, st.toWord = 0x00000001 ∧
      step s = .next { s with inputs := rest, pending := w, status := st, response := some .okayWrite }

/-- 40_command_control.md R106: `complete` clears BUSY and sets DONE and nothing else; after a successful SER, EMB or EXT,
STATUS is `0x0000_0002`. -/
def Obligations.SuccessfulCommandLeavesStatusTwo : Prop :=
  (∀ s : State, complete s = { s with status := { s.status with busy := false, done := true } }) ∧
  (∀ i s t, Running s → exec i s = .next t → t.status.err = false →
    (i ≠ .des → t.status.toWord = 0x2) ∧
    (i = .des → t.status.toWord = 0x2 ∨ t.status.toWord = 0x102 ∨ t.status.toWord = 0x202))

/-- 60_exceptions.md R184: `raise` writes ERRCODE, ERR, BUSY and DONE, STATUS being `0x16`, `0x26` or `0x36` after it; and a
command that raises changes STATUS only. -/
def Obligations.RaisingCommandChangesStatusOnly : Prop :=
  (∀ s : State, Running s →
    (raise .illegalCommand s).status.toWord = 0x16 ∧ (raise .lengthRange s).status.toWord = 0x26 ∧
    (raise .capacityExceeded s).status.toWord = 0x36) ∧
  (∀ (s : State) t, Running s → engineStep s = .next t → t.status.err = true →
    t = { s with status := t.status } ∧
    (t.status.toWord = 0x16 ∨ t.status.toWord = 0x26 ∨ t.status.toWord = 0x36))

/-! ### SER -/

/-- 41_bitstream_codec.md R122 and R123: when `MSG_LEN <= MSG_CAP`, SER completes; with `S` the message and the terminator,
`BIT[8k + b] = S[k][7 - b]`, `BITBYTE[k] = S[k]` and `BIT_LEN = 8 * (MSG_LEN + 4)`, whatever the bytes and whatever PIX_LEN. -/
def Obligations.SerWritesMessageAndTerminator : Prop :=
  ∀ s : State, s.cfg.Legal → Running s → s.msgLen.toNat ≤ s.cfg.msgCap →
    ∃ (t : State) (m : List Byte), exec .ser s = .next t ∧ m.length = s.msgLen.toNat ∧ ReadsAs s.mem.msg m ∧
      (∀ k b, k < m.length + 4 → b < 8 →
        t.mem.bit.read? (8 * k + b) = (m ++ hashes)[k]?.map fun c => c.getLsbD (7 - b)) ∧
      (∀ k d, k < m.length + 4 → (m ++ hashes)[k]? = some (readLane t.cfg t.mem .bit k d).1) ∧
      t.bitLen.toNat = 8 * (m.length + 4) ∧ t.status.toWord = 0x2

/-- 41_bitstream_codec.md R124: SER writes `BIT[0 .. 8*(MSG_LEN+4)-1]`, `BIT_LEN` and STATUS and nothing else. -/
def Obligations.SerChangesNothingElse : Prop :=
  ∀ s t : State, exec .ser s = .next t →
    (∀ i, 8 * (s.msgLen.toNat + 4) ≤ i → t.mem.bit.read? i = s.mem.bit.read? i) ∧
    t.mem.msg = s.mem.msg ∧ t.msgLen = s.msgLen ∧ t.mem.txt = s.mem.txt ∧ t.txtLen = s.txtLen ∧
    t.mem.pix = s.mem.pix ∧ t.pixLen = s.pixLen ∧ t.pending = s.pending ∧ t.cfg = s.cfg ∧ t.held = s.held ∧
    t.response = s.response ∧ t.host = s.host ∧ t.inputs = s.inputs ∧
    t.status.termFound = s.status.termFound ∧ t.status.trunc = s.status.trunc

/-- 41_bitstream_codec.md R121: when `MSG_LEN > MSG_CAP`, SER raises LengthRange, reading nothing and writing neither BIT nor
BIT_LEN. -/
def Obligations.SerRaisesLengthRange : Prop :=
  ∀ s : State, Running s → s.cfg.msgCap < s.msgLen.toNat →
    ∃ st, exec .ser s = .next { s with status := st } ∧ st.toWord = 0x26

/-! ### DES -/

/-- 41_bitstream_codec.md R128 to R131 and R133: DES completes when `BIT_LEN <= BIT_CAP`; the characters it decodes have the
bits of their groups; it stops at the earliest `"####"` among them, strips it and sets TERM_FOUND, or else decodes every full
group, and sets TRUNC exactly when a partial group is left over. -/
def Obligations.DesDecodesToTheFirstTerminator : Prop :=
  ∀ s : State, s.cfg.Legal → Running s → s.bitLen.toNat ≤ s.cfg.bitCap →
    ∃ (t : State) (r : List Byte), exec .des s = .next t ∧
      (∀ k b x, k < r.length → b < 8 → s.mem.bit.read? (8 * k + b) = some x →
        r[k]?.map (fun c => c.getLsbD (7 - b)) = some x) ∧
      (∀ j, j < r.length → t.mem.txt.read? j = r[j]?) ∧
      ((∃ q, FirstHashes r q ∧ r.length = q + 4 ∧ r.length ≤ s.bitLen.toNat / 8 ∧ t.txtLen.toNat = q ∧
          t.status.toWord = 0x102) ∨
        ((∀ q, ¬ HashesAt r q) ∧ r.length = s.bitLen.toNat / 8 ∧ t.txtLen.toNat = s.bitLen.toNat / 8 ∧
          t.status.toWord = if s.bitLen.toNat % 8 = 0 then 0x2 else 0x202))

/-- 41_bitstream_codec.md R132: DES writes every decoded character to TXT, the four terminator characters among them when
found, every write lands in TXT, `TXT[K ..]` keeps its values, and DES writes neither MSG, MSG_LEN, BIT, BIT_LEN, PIX nor PIX_LEN. -/
def Obligations.DesWritesTheDecodedCharactersOnly : Prop :=
  ∀ s t : State, s.cfg.Legal → s.bitLen.toNat ≤ s.cfg.bitCap → exec .des s = .next t →
    s.decodedCharacters.1.length ≤ s.bitLen.toNat / 8 ∧ s.decodedCharacters.1.length ≤ s.cfg.txtCap ∧
    (∀ j, j < s.decodedCharacters.1.length → t.mem.txt.read? j = s.decodedCharacters.1[j]?) ∧
    (∀ j, s.decodedCharacters.1.length ≤ j → t.mem.txt.read? j = s.mem.txt.read? j) ∧
    t.txtLen.toNat = s.decodedCharacters.1.length - (if s.decodedCharacters.2.1 then 4 else 0) ∧
    (s.decodedCharacters.2.1 = true → 4 ≤ s.decodedCharacters.1.length ∧
      ∀ j, j < 4 → t.mem.txt.read? (s.decodedCharacters.1.length - 4 + j) = some 0x23) ∧
    t.mem.msg = s.mem.msg ∧ t.msgLen = s.msgLen ∧ t.mem.bit = s.mem.bit ∧ t.bitLen = s.bitLen ∧
    t.mem.pix = s.mem.pix ∧ t.pixLen = s.pixLen ∧ t.pending = s.pending ∧ t.cfg = s.cfg ∧ t.held = s.held ∧
    t.response = s.response ∧ t.host = s.host ∧ t.inputs = s.inputs ∧
    t.status.err = s.status.err ∧ t.status.errcode = s.status.errcode

/-- 41_bitstream_codec.md R134: when `BIT_LEN > BIT_CAP`, DES raises LengthRange, reading nothing and writing neither TXT,
TXT_LEN, TERM_FOUND nor TRUNC. -/
def Obligations.DesRaisesLengthRange : Prop :=
  ∀ s : State, Running s → s.cfg.bitCap < s.bitLen.toNat →
    ∃ st, exec .des s = .next { s with status := st } ∧ st.toWord = 0x26

/-- 41_bitstream_codec.md R136: DES depends only on BIT_LEN and on the bits of the groups it decodes: with any other bits
after them, every result is the same. -/
def Obligations.DesDependsOnlyOnTheGroupsItDecodes : Prop :=
  ∀ (s t : State) (bit' : Buffer Bit),
    (∀ i, i < 8 * s.decodedCharacters.1.length → bit'.read? i = s.mem.bit.read? i) →
    exec .des s = .next t →
    exec .des { s with mem := { s.mem with bit := bit' } } = .next { t with mem := { t.mem with bit := bit' } }

/-- 41_bitstream_codec.md R135: SER, then DES with BIT and BIT_LEN not written between, gives back the part of the message
before the first `"####"` of message and terminator, with TERM_FOUND. -/
def Obligations.SerThenDesReturnsTheMessagePrefix : Prop :=
  ∀ s : State, s.cfg.Legal → s.msgLen.toNat ≤ s.cfg.msgCap →
    ∃ (t : State) (m : List Byte), runCommand (commandWord .ser) s = .next t ∧ m.length = s.msgLen.toNat ∧
      ReadsAs s.mem.msg m ∧
      ∀ a : State, a.cfg = t.cfg → a.mem.bit = t.mem.bit → a.bitLen = t.bitLen →
        ∃ u, runCommand (commandWord .des) a = .next u ∧ MessageComesBack m u

/-! ### EMB -/

/-- 42_channel_embedder.md R154 and R155: EMB completes when the lengths are in range and the bitstream fits; each carrier
byte gets the bit in its bit 0 and keeps bits 7 to 1, and no byte beyond the bitstream changes. -/
def Obligations.EmbReplacesBitZeroOfTheCarriers : Prop :=
  ∀ s : State, Running s → s.bitLen.toNat ≤ s.cfg.bitCap → s.pixLen.toNat ≤ s.cfg.pixCap →
    s.bitLen.toNat ≤ s.pixLen.toNat →
    ∃ t, exec .emb s = .next t ∧ t.status.toWord = 0x2 ∧
      (∀ i, i < s.bitLen.toNat → ∃ (b : Byte) (x : Bit),
        t.mem.pix.read? i = some ((b &&& 0xFE) ||| (if x then 1 else 0)) ∧
        (∀ b0, s.mem.pix.read? i = some b0 → b = b0) ∧ (∀ x0, s.mem.bit.read? i = some x0 → x = x0)) ∧
      (∀ i, s.bitLen.toNat ≤ i → t.mem.pix.read? i = s.mem.pix.read? i) ∧
      (∀ i b b', s.mem.pix.read? i = some b → t.mem.pix.read? i = some b' →
        b'.extractLsb' 1 7 = b.extractLsb' 1 7 ∧ (b' ≠ b → i < s.bitLen.toNat))

/-- 42_channel_embedder.md R156: EMB writes `PIX[0 .. BIT_LEN-1]` and STATUS and nothing else. -/
def Obligations.EmbChangesNothingElse : Prop :=
  ∀ s t : State, exec .emb s = .next t →
    (∀ i, s.bitLen.toNat ≤ i → t.mem.pix.read? i = s.mem.pix.read? i) ∧
    t.mem.bit = s.mem.bit ∧ t.bitLen = s.bitLen ∧ t.pixLen = s.pixLen ∧ t.mem.msg = s.mem.msg ∧
    t.msgLen = s.msgLen ∧ t.mem.txt = s.mem.txt ∧ t.txtLen = s.txtLen ∧ t.pending = s.pending ∧ t.cfg = s.cfg ∧
    t.held = s.held ∧ t.response = s.response ∧ t.host = s.host ∧ t.inputs = s.inputs ∧
    t.status.termFound = s.status.termFound ∧ t.status.trunc = s.status.trunc

/-- 42_channel_embedder.md R151: EMB's length check comes first: a length above its capacity raises LengthRange, whatever the
other length, with PIX unchanged and nothing read. -/
def Obligations.EmbRaisesLengthRangeFirst : Prop :=
  ∀ s : State, Running s → s.cfg.bitCap < s.bitLen.toNat ∨ s.cfg.pixCap < s.pixLen.toNat →
    ∃ st, exec .emb s = .next { s with status := st } ∧ st.toWord = 0x26

/-- 42_channel_embedder.md R153 and 60_exceptions.md R183: with both lengths within capacity, `BIT_LEN > PIX_LEN` raises
CapacityExceeded before any mutation: no byte of PIX changes, and the operands stay in their registers. -/
def Obligations.EmbRaisesCapacityExceededBeforeMutation : Prop :=
  ∀ s : State, Running s → s.bitLen.toNat ≤ s.cfg.bitCap → s.pixLen.toNat ≤ s.cfg.pixCap →
    s.pixLen.toNat < s.bitLen.toNat →
    ∃ st, exec .emb s = .next { s with status := st } ∧ st.toWord = 0x36

/-- 42_channel_embedder.md R157: EMB run twice, with BIT, BIT_LEN, PIX and PIX_LEN not written between, leaves PIX as one EMB
leaves it, at every carrier whose bit is written (an unwritten bit is drawn afresh, R35) and beyond the carriers. -/
def Obligations.EmbTwiceIsEmbOnce : Prop :=
  ∀ s : State, s.bitLen.toNat ≤ s.cfg.bitCap → s.pixLen.toNat ≤ s.cfg.pixCap → s.bitLen.toNat ≤ s.pixLen.toNat →
    ∃ t, runCommand (commandWord .emb) s = .next t ∧
      ∀ a, SameCarrier a t → ∃ u, runCommand (commandWord .emb) a = .next u ∧ u.status.toWord = 0x2 ∧
        ∀ i, (i < s.bitLen.toNat → (s.mem.bit.read? i).isSome = true) → u.mem.pix.read? i = t.mem.pix.read? i

/-! ### EXT -/

/-- 42_channel_embedder.md R161 and R163: when `PIX_LEN <= PIX_CAP`, EXT always completes, and `BIT[i]` is bit 0 of `PIX[i]`
for every `i < PIX_LEN`. -/
def Obligations.ExtCopiesBitZeroOfEveryByte : Prop :=
  ∀ s : State, Running s → s.pixLen.toNat ≤ s.cfg.pixCap →
    ∃ (t : State) (bytes : List Byte), exec .ext s = .next t ∧ bytes.length = s.pixLen.toNat ∧
      ReadsAs s.mem.pix bytes ∧
      (∀ i, i < s.pixLen.toNat → t.mem.bit.read? i = bytes[i]?.map fun b => b.getLsbD 0) ∧ t.status.toWord = 0x2

/-- 42_channel_embedder.md R162: EXT sets `BIT_LEN <- PIX_LEN`, `BIT[PIX_LEN ..]` keeps its values, and EXT writes nothing
else. -/
def Obligations.ExtSetsBitLenAndChangesNothingElse : Prop :=
  ∀ s t : State, s.pixLen.toNat ≤ s.cfg.pixCap → exec .ext s = .next t →
    t.bitLen = s.pixLen ∧
    (∀ i, s.pixLen.toNat ≤ i → t.mem.bit.read? i = s.mem.bit.read? i) ∧
    t.mem.pix = s.mem.pix ∧ t.pixLen = s.pixLen ∧ t.mem.msg = s.mem.msg ∧ t.msgLen = s.msgLen ∧
    t.mem.txt = s.mem.txt ∧ t.txtLen = s.txtLen ∧ t.pending = s.pending ∧ t.cfg = s.cfg ∧ t.held = s.held ∧
    t.response = s.response ∧ t.host = s.host ∧ t.inputs = s.inputs ∧
    t.status.termFound = s.status.termFound ∧ t.status.trunc = s.status.trunc

/-- 42_channel_embedder.md R160: when `PIX_LEN > PIX_CAP`, EXT raises LengthRange, reading nothing and writing neither BIT nor
BIT_LEN. -/
def Obligations.ExtRaisesLengthRange : Prop :=
  ∀ s : State, Running s → s.cfg.pixCap < s.pixLen.toNat →
    ∃ st, exec .ext s = .next { s with status := st } ∧ st.toWord = 0x26

/-! ### The whole path -/

/-- 42_channel_embedder.md R164: after a successful EMB of N bits, EXT with PIX and PIX_LEN not written between sets `BIT[i]` to
its value before EMB for `i < N`, to bit 0 of the untouched `PIX[i]` for `N <= i < PIX_LEN`, and `BIT_LEN` to PIX_LEN. -/
def Obligations.EmbThenExtReturnsTheBits : Prop :=
  ∀ s : State, s.bitLen.toNat ≤ s.cfg.bitCap → s.pixLen.toNat ≤ s.cfg.pixCap → s.bitLen.toNat ≤ s.pixLen.toNat →
    ∃ t, runCommand (commandWord .emb) s = .next t ∧ t.status.toWord = 0x2 ∧
      ∀ a : State, a.cfg = t.cfg → a.mem.pix = t.mem.pix → a.pixLen = t.pixLen →
        ∃ u, runCommand (commandWord .ext) a = .next u ∧ u.bitLen = s.pixLen ∧
          (∀ i x, i < s.bitLen.toNat → s.mem.bit.read? i = some x → u.mem.bit.read? i = some x) ∧
          (∀ i b, s.bitLen.toNat ≤ i → i < s.pixLen.toNat → s.mem.pix.read? i = some b →
            u.mem.bit.read? i = some (b.getLsbD 0))

/-- 42_channel_embedder.md R165: SER, EMB, EXT, DES in that order, with BIT, BIT_LEN, PIX and PIX_LEN not written between, all
succeed when the bitstream fits the pixel buffer, and DES ends as after SER alone (R135). -/
def Obligations.EncodeThenDecodeReturnsTheMessagePrefix : Prop :=
  ∀ s : State, s.cfg.Legal → s.msgLen.toNat ≤ s.cfg.msgCap → s.pixLen.toNat ≤ s.cfg.pixCap →
    8 * (s.msgLen.toNat + 4) ≤ s.pixLen.toNat →
    ∃ (t1 : State) (m : List Byte), runCommand (commandWord .ser) s = .next t1 ∧ t1.status.toWord = 0x2 ∧
      m.length = s.msgLen.toNat ∧ ReadsAs s.mem.msg m ∧
      ∀ a1, SameCarrier a1 t1 →
        ∃ t2, runCommand (commandWord .emb) a1 = .next t2 ∧ t2.status.toWord = 0x2 ∧
          ∀ a2, SameCarrier a2 t2 →
            ∃ t3, runCommand (commandWord .ext) a2 = .next t3 ∧ t3.status.toWord = 0x2 ∧
              ∀ a3, SameCarrier a3 t3 →
                ∃ u, runCommand (commandWord .des) a3 = .next u ∧ MessageComesBack m u

/-- 42_channel_embedder.md R166: ENCODE (SER, then EMB) succeeds exactly when `8 * (MSG_LEN + 4) <= PIX_LEN`; otherwise EMB
raises CapacityExceeded and PIX is unchanged. -/
def Obligations.EncodeSucceedsExactlyWhenItFits : Prop :=
  ∀ s : State, s.cfg.Legal → s.msgLen.toNat ≤ s.cfg.msgCap → s.pixLen.toNat ≤ s.cfg.pixCap →
    ∃ t u, runCommand (commandWord .ser) s = .next t ∧ runCommand (commandWord .emb) t = .next u ∧
      (u.status.err = false ↔ 8 * (s.msgLen.toNat + 4) ≤ s.pixLen.toNat) ∧
      (s.pixLen.toNat < 8 * (s.msgLen.toNat + 4) → u.status.toWord = 0x36 ∧ u.mem.pix = s.mem.pix)

/-! ### The host port -/

/-- 20_memory.md R59: a transaction gets `ERROR` exactly when its size, its address or its access is wrong, and then no state
changes (the model's counter of free values apart, log 7). -/
def Obligations.BadTransactionsGetErrorAndChangeNothing : Prop :=
  ∀ (tx : BusTx) (s : State),
    (BadTransaction s.cfg tx ↔ ∃ v, (respond tx s).1 = .error v) ∧
    (BadTransaction s.cfg tx → ∃ d, (respond tx s).2 = { s with draws := d })

/-- 20_memory.md R60, for the registers (10_state.md R22, R29): what a read of each readable register returns, with no side
effect. -/
def Obligations.RegisterReadsReturnTheRegisters : Prop :=
  ∀ s : State,
    respond ⟨.read, 0x004, 4⟩ s = (.okayRead s.status.toWord, s) ∧
    respond ⟨.read, 0x008, 4⟩ s = (.okayRead s.msgLen, s) ∧
    respond ⟨.read, 0x00C, 4⟩ s = (.okayRead s.bitLen, s) ∧
    respond ⟨.read, 0x010, 4⟩ s = (.okayRead s.pixLen, s) ∧
    respond ⟨.read, 0x014, 4⟩ s = (.okayRead s.txtLen, s) ∧
    respond ⟨.read, 0x018, 4⟩ s = (.okayRead (BitVec.ofNat 32 s.cfg.msgCap), s) ∧
    respond ⟨.read, 0x01C, 4⟩ s = (.okayRead (BitVec.ofNat 32 s.cfg.txtCap), s) ∧
    respond ⟨.read, 0x020, 4⟩ s = (.okayRead (BitVec.ofNat 32 s.cfg.bitCap), s) ∧
    respond ⟨.read, 0x024, 4⟩ s = (.okayRead (BitVec.ofNat 32 s.cfg.pixCap), s)

/-- 20_memory.md R60 and R64: a read transaction changes no state (the model's counter of free values apart, log 4). -/
def Obligations.ReadTransactionsHaveNoSideEffect : Prop :=
  ∀ (tx : BusTx) (s : State), tx.kind = .read → ∃ r d, respond tx s = (r, { s with draws := d })

/-- 20_memory.md R61, for the registers (10_state.md R23, R25 to R27): what a write to each writable register does, for every
word; all bits are stored, whatever the capacities. -/
def Obligations.RegisterWritesStoreEveryWord : Prop :=
  ∀ (s : State) v,
    respond ⟨.write v, 0x000, 4⟩ s = (.okayWrite, startCommand v s) ∧
    respond ⟨.write v, 0x008, 4⟩ s = (.okayWrite, { s with msgLen := v }) ∧
    respond ⟨.write v, 0x00C, 4⟩ s = (.okayWrite, { s with bitLen := v }) ∧
    respond ⟨.write v, 0x010, 4⟩ s = (.okayWrite, { s with pixLen := v })

/-- 20_memory.md R60 `window_read`, with R53, R57, R58 and 10_state.md R33: a read at a mapped offset of any window gives in
lane `n` the byte at `off + n`, 0 in the lanes that do not exist, and 0 in the bits of BIT that do not. -/
def Obligations.WindowReadGivesTheBytesOfItsLanes : Prop :=
  ∀ (s : State) (w : Window) (addr : Word) off, s.cfg.Legal → addr.toNat = windowBase w + off → off % 4 = 0 →
    off < w.size s.cfg →
    ∃ r d, respond ⟨.read, addr, 4⟩ s = (.okayRead r, { s with draws := d }) ∧
      ∀ n, n < 4 →
        (w.size s.cfg ≤ off + n → r.extractLsb' (8 * n) 8 = 0) ∧
        (∀ b, off + n < w.size s.cfg →
          (w = .msg ∧ s.mem.msg.read? (off + n) = some b ∨ w = .txt ∧ s.mem.txt.read? (off + n) = some b ∨
            w = .pix ∧ s.mem.pix.read? (off + n) = some b) → r.extractLsb' (8 * n) 8 = b) ∧
        (∀ b, off + n < w.size s.cfg → w = .bit → b < 8 →
          (s.cfg.bitCap ≤ 8 * (off + n) + b → r.getLsbD (8 * n + (7 - b)) = false) ∧
          (∀ x, 8 * (off + n) + b < s.cfg.bitCap → s.mem.bit.read? (8 * (off + n) + b) = some x →
            r.getLsbD (8 * n + (7 - b)) = x))

/-- 20_memory.md R58 (with R53, R55 and 10_state.md R33): a word written to a mapped offset of a writable window reads back
with its own bytes in the lanes that exist, 0 in the lanes that do not, and 0 in the bits of BIT that do not. -/
def Obligations.WindowWordReadsBackInItsLanes : Prop :=
  ∀ (s : State) (w : Window) (addr v : Word) off, s.cfg.Legal → addr.toNat = windowBase w + off → w ≠ .txt →
    off % 4 = 0 → off < w.size s.cfg →
    ∃ t r, respond ⟨.write v, addr, 4⟩ s = (.okayWrite, t) ∧ respond ⟨.read, addr, 4⟩ t = (.okayRead r, t) ∧
      ∀ n b, n < 4 → b < 8 →
        r.getLsbD (8 * n + (7 - b)) =
          (decide (off + n < w.size s.cfg) &&
            (decide (w ≠ .bit) || decide (8 * (off + n) + b < s.cfg.bitCap)) && v.getLsbD (8 * n + (7 - b)))

/-- 20_memory.md R61: a window write changes the elements of its four lanes and nothing else. -/
def Obligations.WindowWriteChangesItsLanesOnly : Prop :=
  ∀ (s t : State) (w : Window) (addr v : Word) off, addr.toNat = windowBase w + off → off < 2 ^ 28 →
    respond ⟨.write v, addr, 4⟩ s = (.okayWrite, t) →
    t = { s with mem := t.mem } ∧ t.mem.txt = s.mem.txt ∧
    (∀ i, ¬ (w = .msg ∧ off ≤ i ∧ i < off + 4) → t.mem.msg.read? i = s.mem.msg.read? i) ∧
    (∀ i, ¬ (w = .pix ∧ off ≤ i ∧ i < off + 4) → t.mem.pix.read? i = s.mem.pix.read? i) ∧
    (∀ i, ¬ (w = .bit ∧ 8 * off ≤ i ∧ i < 8 * (off + 4)) → t.mem.bit.read? i = s.mem.bit.read? i)

/-- 20_memory.md R62: while `BUSY = 1` every transaction other than a read of STATUS is held, with no response and no effect,
but a malformed one gets `ERROR` at once; it stays held through the ENGINE's step, and when the command has ended it proceeds
as if issued at that moment. -/
def Obligations.BusyStallHoldsTransactions : Prop :=
  (∀ (s : State) tx rest, s.cfg.Legal → s.status.busy = true → s.held = none → s.inputs = .issue tx :: rest →
    (tx.size = 4 ∧ tx.addr.toNat % 4 = 0 → ¬ (tx.kind = .read ∧ tx.addr = 0x004) →
      step s = .next { s with inputs := rest, held := some ⟨tx, .stream⟩ }) ∧
    (¬ (tx.size = 4 ∧ tx.addr.toNat % 4 = 0) →
      ∃ v d, step s = .next { s with inputs := rest, response := some (.error v), draws := d })) ∧
  (∀ (s : State) h, s.cfg.Legal → s.status.busy = true → s.held = some h → (∀ rest, s.inputs ≠ .reset :: rest) →
    ∃ t, step s = .next t ∧ t.status.busy = false ∧ t.held = some h ∧ t.response = s.response) ∧
  (∀ (s : State) h, s.cfg.Legal → s.status.busy = false → s.held = some h → (∀ rest, s.inputs ≠ .reset :: rest) →
    ∃ ins, (ins = s.inputs ∨ s.inputs = .blockTurn :: ins) ∧
      step s = .next (issue h { s with held := none, inputs := ins }))

/-- 70_reset_and_hazards.md R211, its first sentence, in the states the rules allow: a STATUS read while `BUSY = 1` returns
`0x0000_0001`, at once, and changes nothing. -/
def Obligations.StatusReadWhileBusyReturnsOne : Prop :=
  ∀ (s : State) rest, s.Inv → s.status.busy = true → s.held = none → s.inputs = .issue ⟨.read, 0x004, 4⟩ :: rest →
    step s = .next { s with inputs := rest, response := some (.okayRead 0x00000001) }

/-- 70_reset_and_hazards.md R213: a write issued while a command runs waits until it has ended, so the command runs on the
state before the write; then it takes effect. -/
def Obligations.WriteDuringCommandWaitsForItsEnd : Prop :=
  ∀ (s : State) a v, s.cfg.Legal → s.status.busy = true → s.held = none → a.toNat % 4 = 0 →
    s.inputs = [.issue ⟨.write v, a, 4⟩] →
    ∃ t, engineStep { s with inputs := [] } = .next t ∧ t.status.busy = false ∧
      Host.Core.run Sys2Proof.core 3 s =
        .next (deliver .stream (respond ⟨.write v, a, 4⟩ t).1 (respond ⟨.write v, a, 4⟩ t).2)

/-! ### Reset -/

/-- The machine right after reset (70_reset_and_hazards.md R200, 10_state.md section 8): STATUS and the four length registers
0, nothing written in any buffer; the CAP registers hold the capacities. -/
def Obligations.ResetMachineIsIdleWithZeroLengths : Prop :=
  State.reset.status.toWord = 0 ∧ State.reset.status.busy = false ∧ State.reset.msgLen = 0 ∧
  State.reset.bitLen = 0 ∧ State.reset.pixLen = 0 ∧ State.reset.txtLen = 0 ∧
  (∀ i, State.reset.mem.msg.read? i = none ∧ State.reset.mem.txt.read? i = none ∧
    State.reset.mem.bit.read? i = none ∧ State.reset.mem.pix.read? i = none) ∧
  readRegister State.reset .capMsg = some (BitVec.ofNat 32 State.reset.cfg.msgCap) ∧
  readRegister State.reset .capTxt = some (BitVec.ofNat 32 State.reset.cfg.txtCap) ∧
  readRegister State.reset .capBit = some (BitVec.ofNat 32 State.reset.cfg.bitCap) ∧
  readRegister State.reset .capPix = some (BitVec.ofNat 32 State.reset.cfg.pixCap)

/-- 70_reset_and_hazards.md R201: reset takes precedence over everything, busy or holding a transaction; STATUS and the length
registers become 0, every element is unspecified again, the pending command is abandoned, and a held transaction is abandoned
with no response. -/
def Obligations.ResetInputReplacesTheWholeState : Prop :=
  ∀ (s : State) rest, s.cfg.Legal → s.inputs = .reset :: rest →
    ∃ t, step s = .next t ∧ t.status.toWord = 0 ∧ t.status.busy = false ∧ t.msgLen = 0 ∧ t.bitLen = 0 ∧
      t.pixLen = 0 ∧ t.txtLen = 0 ∧ t.held = none ∧ (∀ r, t.response = some r → s.response = some r) ∧
      (∀ i, t.mem.msg.read? i = none ∧ t.mem.txt.read? i = none ∧ t.mem.bit.read? i = none ∧
        t.mem.pix.read? i = none) ∧
      t.cfg = s.cfg ∧ t.inputs = rest

/-- 70_reset_and_hazards.md R202: a command issued right after reset succeeds on the reset lengths, in every configuration. -/
def Obligations.EveryCommandSucceedsRightAfterReset : Prop :=
  ∀ s : State, s.cfg.Legal →
    (∃ t, runCommand (commandWord .ser) (takeReset s) = .next t ∧ t.status.toWord = 0x2 ∧ t.bitLen = 32 ∧
      ∀ k b, k < 4 → b < 8 → t.mem.bit.read? (8 * k + b) = some ((0x23 : Byte).getLsbD (7 - b))) ∧
    (∃ t, runCommand (commandWord .des) (takeReset s) = .next t ∧ t.status.toWord = 0x2 ∧ t.bitLen = 0 ∧
      t.txtLen = 0) ∧
    (∃ t, runCommand (commandWord .emb) (takeReset s) = .next t ∧ t.status.toWord = 0x2 ∧
      t.mem = (takeReset s).mem ∧ t.msgLen = 0 ∧ t.bitLen = 0 ∧ t.pixLen = 0 ∧ t.txtLen = 0) ∧
    (∃ t, runCommand (commandWord .ext) (takeReset s) = .next t ∧ t.status.toWord = 0x2 ∧ t.bitLen = 0)

/-! ### The whole machine -/

/-- Every step keeps the invariant `State.Inv`: a legal configuration (00_scope.md R6), canonical buffers within their
capacities (10_state.md R31 to R34), a legal STATUS (R24) with a known error code (60_exceptions.md R180), `TXT_LEN <= TXT_CAP`
(R28), and on the port only transactions that are held (20_memory.md R62). -/
def Obligations.EveryStepKeepsTheInvariant : Prop :=
  ∀ s t : State, s.Inv → step s = .next t → t.Inv

/-- The machine right after reset meets the invariant. -/
def Obligations.ResetMachineMeetsTheInvariant : Prop := State.reset.Inv

/-- Nothing stops the block (60_exceptions.md R190): in a legal configuration, with a well-formed host program, every step
answers a next state, and that state has the same configuration and host program. -/
def Obligations.EveryStepAnswersANextState : Prop :=
  ∀ s : State, s.cfg.Legal → programWellFormed s.host.program = true →
    ∃ t, step s = .next t ∧ t.cfg = s.cfg ∧ t.host.program = s.host.program

/-- 10_state.md R29: the CAP registers never change, including across reset, and are hardwired to the parameters. -/
def Obligations.CapacityRegistersNeverChange : Prop :=
  ∀ s t : State, step s = .next t → t.cfg = s.cfg ∧
    readRegister t .capMsg = some (BitVec.ofNat 32 s.cfg.msgCap) ∧
    readRegister t .capTxt = some (BitVec.ofNat 32 s.cfg.txtCap) ∧
    readRegister t .capBit = some (BitVec.ofNat 32 s.cfg.bitCap) ∧
    readRegister t .capPix = some (BitVec.ofNat 32 s.cfg.pixCap) ∧
    (∀ v, writeRegister s v .capMsg = none ∧ writeRegister s v .capTxt = none ∧ writeRegister s v .capBit = none ∧
      writeRegister s v .capPix = none)

/-- Who writes what, over every step but a reset (10_state.md R24 to R28, R30 to R34, 60_exceptions.md R191,
70_reset_and_hazards.md R212): STATUS only the ENGINE's step, which is there only while busy, or an accepted CMD write, which
latches its word; TXT and TXT_LEN only the ENGINE running DES; MSG, MSG_LEN, PIX_LEN and PENDING never the ENGINE; PIX, while
busy, only EMB; BIT and BIT_LEN, while busy, only SER or EXT. -/
def Obligations.EachRegisterAndBufferHasItsWriters : Prop :=
  ∀ s t : State, step s = .next t → (∀ rest, s.inputs ≠ .reset :: rest) →
    (t.status ≠ s.status →
      (s.status.busy = true ∧ ∃ ins, engineStep { s with inputs := ins } = .next t) ∨
      (s.status.busy = false ∧ t.status.toWord = 0x00000001 ∧ t.response = some .okayWrite ∧
        Issues s ⟨.write t.pending, 0x000, 4⟩)) ∧
    (t.mem.txt ≠ s.mem.txt ∨ t.txtLen ≠ s.txtLen → s.status.busy = true ∧ decodeWord s.pending = .ok .des) ∧
    (t.mem.msg ≠ s.mem.msg ∨ t.msgLen ≠ s.msgLen ∨ t.pixLen ≠ s.pixLen ∨ t.pending ≠ s.pending →
      s.status.busy = false) ∧
    (t.mem.pix ≠ s.mem.pix → s.status.busy = false ∨ decodeWord s.pending = .ok .emb) ∧
    (t.mem.bit ≠ s.mem.bit ∨ t.bitLen ≠ s.bitLen →
      s.status.busy = false ∨ decodeWord s.pending = .ok .ser ∨ decodeWord s.pending = .ok .ext)

/-- 70_reset_and_hazards.md R214, as a bound: from a busy state with no reset coming and a well-formed host program, the command
has ended (`BUSY = 0`, `DONE = 1`) within one step more than there are inputs, whatever the host does meanwhile. -/
def Obligations.BusyCommandEndsWithinTheInputs : Prop :=
  ∀ s : State, s.cfg.Legal → s.status.busy = true → programWellFormed s.host.program = true →
    (∀ x ∈ s.inputs, x ≠ .reset) →
    ∃ n t, n ≤ s.inputs.length + 1 ∧ Host.Core.run Sys2Proof.core n s = .next t ∧ t.status.busy = false ∧
      t.status.done = true

/-! ### The host program -/

/-- 30_encoding.md R88, with 20_memory.md R62: when it is the host program's turn and the block takes its transaction, `RD a ->
rN` loads the data of the read, `WR a, v` writes, a command writes its word to CMD, each going on with the next line; a
transaction that gets `ERROR` stops the program and leaves the block as it was (what RD then loads is log 8); and while the
block is busy every other transaction waits. In each case that is the whole of what the step changes. -/
def Obligations.HostBusStatementsAreBusTransactions : Prop :=
  ∀ (s : State) ins k st, s.cfg.Legal → HostTurn s ins → NextStmt s.host k st →
    (∀ a r v u, st = .rd a r → s.status.busy = false ∨ a = 0x004 → respond ⟨.read, a, 4⟩ s = (.okayRead v, u) →
      step s = .next { u with
        inputs := ins, response := some (.okayRead v),
        host := { s.host with regs := s.host.regs.set r.val v, pc := k + 1 } }) ∧
    (∀ a v u, st = .wr a v → s.status.busy = false → respond ⟨.write v, a, 4⟩ s = (.okayWrite, u) →
      step s = .next { u with
        inputs := ins, response := some .okayWrite, host := { s.host with pc := k + 1 } }) ∧
    (∀ i, st = .cmd i → s.status.busy = false → ∃ sw, sw.toWord = 0x00000001 ∧
      step s = .next { s with
        inputs := ins, pending := commandWord i, status := sw, response := some .okayWrite,
        host := { s.host with pc := k + 1 } }) ∧
    (∀ a r, st = .rd a r → s.status.busy = false ∨ a.toNat % 4 ≠ 0 → BadTransaction s.cfg ⟨.read, a, 4⟩ → ∃ v d,
      step s = .next { s with
        inputs := ins, draws := d, response := some (.error v),
        host := { s.host with regs := s.host.regs.set r.val v, pc := k, stopped := true } }) ∧
    (∀ a w, st = .wr a w → s.status.busy = false ∨ a.toNat % 4 ≠ 0 → BadTransaction s.cfg ⟨.write w, a, 4⟩ → ∃ v d,
      step s = .next { s with
        inputs := ins, draws := d, response := some (.error v), host := { s.host with pc := k, stopped := true } }) ∧
    (∀ tx, stmtTx st = some tx → s.status.busy = true → tx.addr.toNat % 4 = 0 → ¬ (tx.kind = .read ∧ tx.addr = 0x004) →
      ∃ dst, (∀ a r, st = .rd a r → dst = some r) ∧
        step s = .next { s with inputs := ins, held := some ⟨tx, .program dst⟩, host := { s.host with pc := k } })

/-- 30_encoding.md R87 and R89: when it is the host program's turn, BSET, BCLR and JMP go to the line where their label stands
or to the next line, HALT ends the program, whether the block is busy or idle, and the block is left as it was. -/
def Obligations.HostControlStatementsStayInTheHost : Prop :=
  ∀ (s : State) ins k st, s.cfg.Legal → HostTurn s ins → NextStmt s.host k st →
    (∀ r b l j, st = .bset r b l → LabelAt s.host.program l j →
      step s = .next { s with inputs := ins, host := { s.host with
        pc := if s.host.regs[r.val].getLsbD b.val then j else k + 1 } }) ∧
    (∀ r b l j, st = .bclr r b l → LabelAt s.host.program l j →
      step s = .next { s with inputs := ins, host := { s.host with
        pc := if s.host.regs[r.val].getLsbD b.val then k + 1 else j } }) ∧
    (∀ l j, st = .jmp l → LabelAt s.host.program l j →
      step s = .next { s with inputs := ins, host := { s.host with pc := j } }) ∧
    (st = .halt → step s = .next { s with inputs := ins, host := { s.host with pc := k, stopped := true } })

/-- 30_encoding.md R90 to R93: the lines that POLL, RUN, CHECK, ENCODE and DECODE stand for, one by one, STATUS being the
address 0x004; and two uses of ENCODE or DECODE, each with its own number, make a well-formed program. -/
def Obligations.EncodeAndDecodeExpandToWellFormedPrograms : Prop :=
  (∀ k r, pollLines k r = [.label (.poll k), .stmt (.rd 0x004 r), .stmt (.bset r 0 (.poll k))]) ∧
  (∀ i k r, runLines i k r =
    [.stmt (.cmd i), .label (.poll k), .stmt (.rd 0x004 r), .stmt (.bset r 0 (.poll k))]) ∧
  (∀ r l, checkLines r l = [.stmt (.bset r 2 l)]) ∧
  (∀ k r, ∃ p q, p ≠ q ∧ encodeLines k r =
    [.stmt (.cmd .ser), .label (.poll p), .stmt (.rd 0x004 r), .stmt (.bset r 0 (.poll p)),
      .stmt (.bset r 2 (.encDone k)),
      .stmt (.cmd .emb), .label (.poll q), .stmt (.rd 0x004 r), .stmt (.bset r 0 (.poll q)),
      .label (.encDone k)]) ∧
  (∀ k r, ∃ p q, p ≠ q ∧ decodeLines k r =
    [.stmt (.cmd .ext), .label (.poll p), .stmt (.rd 0x004 r), .stmt (.bset r 0 (.poll p)),
      .stmt (.bset r 2 (.decDone k)),
      .stmt (.cmd .des), .label (.poll q), .stmt (.rd 0x004 r), .stmt (.bset r 0 (.poll q)),
      .label (.decDone k)]) ∧
  (∀ (k j : Nat) (r q : Reg), k ≠ j →
    programWellFormed (encodeLines k r ++ decodeLines j q ++ [.stmt .halt]) = true ∧
    programWellFormed (encodeLines k r ++ encodeLines j q ++ [.stmt .halt]) = true ∧
    programWellFormed (decodeLines k r ++ decodeLines j q ++ [.stmt .halt]) = true)

/-- What a well-formed host program is (30_encoding.md R87, R89, R90): no label stands on two lines, and every branch goes to a
label that stands on some line. -/
def Obligations.WellFormedProgramsDefineEachLabelOnce : Prop :=
  ∀ p : List Line, programWellFormed p = true ↔
    (∀ (i j : Nat) l, p[i]? = some (Line.label l) → p[j]? = some (Line.label l) → i = j) ∧
    (∀ (i : Nat) l, (∃ r b, p[i]? = some (Line.stmt (.bset r b l))) ∨ (∃ r b, p[i]? = some (Line.stmt (.bclr r b l))) ∨
        p[i]? = some (Line.stmt (.jmp l)) → ∃ j : Nat, p[j]? = some (Line.label l))
end

