-- ==== Sys2Proof/Laws/Buffer.lean ====
section
/-! SUPPORT. The laws of the buffers: read after write, what a run of writes leaves, that every write keeps the canonical
form and the bounds, that canonical buffers are equal when they read the same, and what a run of reads gives. -/

namespace Sys2Proof.Machine

variable {α : Type}

@[simp] theorem Buffer.read?_nil (i : Nat) : Buffer.read? ([] : Buffer α) i = none := rfl

theorem Buffer.read?_cons (j i : Nat) (v : α) (b : Buffer α) :
    Buffer.read? ((j, v) :: b) i = if i = j then some v else Buffer.read? b i := rfl

/-- Read after write. -/
theorem Buffer.read?_write (b : Buffer α) (i k : Nat) (v : α) :
    (b.write i v).read? k = if k = i then some v else b.read? k := by
  induction b with
  | nil => rfl
  | cons c b ih =>
    obtain ⟨j, w⟩ := c
    simp only [Buffer.write]
    split
    · rfl
    · split
      · next h => subst h; simp only [Buffer.read?]; split <;> rfl
      · next h =>
        simp only [Buffer.read?, ih]
        split
        · next hk => rw [if_neg (by omega)]
        · rfl

@[simp] theorem Buffer.read?_write_self (b : Buffer α) (i : Nat) (v : α) : (b.write i v).read? i = some v := by
  simp [Buffer.read?_write]

theorem Buffer.read?_write_of_ne (b : Buffer α) {i k : Nat} (v : α) (h : k ≠ i) :
    (b.write i v).read? k = b.read? k := by
  simp [Buffer.read?_write, h]

/-- Reading after a run of writes: inside the run its elements, outside what was there. -/
theorem Buffer.read?_writeFrom (b : Buffer α) (i k : Nat) (vs : List α) :
    (b.writeFrom i vs).read? k = if i ≤ k ∧ k < i + vs.length then vs[k - i]? else b.read? k := by
  induction vs generalizing b i with
  | nil =>
    rw [if_neg (by simp only [List.length_nil]; omega)]
    rfl
  | cons v vs ih =>
    simp only [Buffer.writeFrom, ih, Buffer.read?_write, List.length_cons]
    by_cases h1 : i + 1 ≤ k ∧ k < i + 1 + vs.length
    · rw [if_pos h1, if_pos (by omega), show k - i = (k - (i + 1)) + 1 by omega]
      simp
    · rw [if_neg h1]
      by_cases h2 : k = i
      · subst h2
        simp
      · rw [if_neg h2, if_neg (by omega)]

theorem Buffer.read?_writeFrom_inside (b : Buffer α) {i k : Nat} {vs : List α} (h : k < vs.length) :
    (b.writeFrom i vs).read? (i + k) = vs[k]? := by
  rw [Buffer.read?_writeFrom, if_pos (by omega), Nat.add_sub_cancel_left]

theorem Buffer.read?_writeFrom_outside (b : Buffer α) {i k : Nat} {vs : List α} (h : k < i ∨ i + vs.length ≤ k) :
    (b.writeFrom i vs).read? k = b.read? k := by
  rw [Buffer.read?_writeFrom, if_neg (by omega)]

theorem Buffer.mem_write {b : Buffer α} {i : Nat} {v : α} {c : Nat × α} (h : c ∈ b.write i v) :
    c = (i, v) ∨ c ∈ b := by
  induction b with
  | nil => simpa [Buffer.write] using h
  | cons d b ih =>
    obtain ⟨j, w⟩ := d
    simp only [Buffer.write] at h
    split at h
    · simpa using h
    · split at h
      · rcases List.mem_cons.mp h with h | h
        · exact .inl h
        · exact .inr (List.mem_cons_of_mem _ h)
      · rcases List.mem_cons.mp h with h | h
        · exact .inr (h ▸ List.mem_cons_self)
        · exact (ih h).imp id (List.mem_cons_of_mem _)

/-- A write keeps the canonical form. -/
theorem Buffer.rising_write {b : Buffer α} (h : b.Rising) (i : Nat) (v : α) : (b.write i v).Rising := by
  induction b with
  | nil => exact List.pairwise_singleton _ _
  | cons c b ih =>
    obtain ⟨j, w⟩ := c
    have hb := List.pairwise_cons.mp h
    simp only [Buffer.write]
    split
    · next hij =>
      refine List.pairwise_cons.mpr ⟨fun c hc => ?_, h⟩
      rcases List.mem_cons.mp hc with rfl | hc
      · exact hij
      · exact Nat.lt_trans hij (hb.1 c hc)
    · split
      · next hij => subst hij; exact List.pairwise_cons.mpr ⟨hb.1, hb.2⟩
      · next h1 h2 =>
        refine List.pairwise_cons.mpr ⟨fun c hc => ?_, ih hb.2⟩
        rcases Buffer.mem_write hc with rfl | hc
        · exact Nat.lt_of_le_of_ne (Nat.not_lt.mp h1) (Ne.symm h2)
        · exact hb.1 c hc

theorem Buffer.rising_writeFrom {b : Buffer α} (h : b.Rising) (i : Nat) (vs : List α) :
    (b.writeFrom i vs).Rising := by
  induction vs generalizing b i with
  | nil => exact h
  | cons v vs ih => exact ih (Buffer.rising_write h i v) (i + 1)

theorem Buffer.below_write {b : Buffer α} {n i : Nat} (h : b.Below n) (hi : i < n) (v : α) :
    (b.write i v).Below n := by
  intro c hc
  rcases Buffer.mem_write hc with rfl | hc
  · exact hi
  · exact h c hc

theorem Buffer.below_writeFrom {b : Buffer α} {n i : Nat} (h : b.Below n) {vs : List α}
    (hi : vs = [] ∨ i + vs.length ≤ n) : (b.writeFrom i vs).Below n := by
  induction vs generalizing b i with
  | nil => exact h
  | cons v vs ih =>
    have hi : i + (vs.length + 1) ≤ n := by simpa using hi
    exact ih (Buffer.below_write h (by omega) v) (.inr (by omega))

theorem Buffer.read?_eq_none_of_lt {b : Buffer α} {i : Nat} (h : ∀ c ∈ b, i < c.1) : b.read? i = none := by
  induction b with
  | nil => rfl
  | cons c b ih =>
    obtain ⟨j, w⟩ := c
    have hj : i < j := h (j, w) List.mem_cons_self
    rw [Buffer.read?_cons, if_neg (by omega)]
    exact ih fun c hc => h c (List.mem_cons_of_mem _ hc)

/-- Canonical buffers that read the same are the same data. -/
theorem Buffer.ext_of_rising {a b : Buffer α} (ha : a.Rising) (hb : b.Rising) (h : ∀ i, a.read? i = b.read? i) :
    a = b := by
  induction a generalizing b with
  | nil =>
    cases b with
    | nil => rfl
    | cons c b =>
      have := h c.1
      rw [Buffer.read?_cons c.1 c.1 c.2 b, if_pos rfl] at this
      cases this
  | cons c a ih =>
    obtain ⟨i, v⟩ := c
    cases b with
    | nil =>
      have := h i
      rw [Buffer.read?_cons, if_pos rfl] at this
      cases this
    | cons d b =>
      obtain ⟨j, w⟩ := d
      have pa := List.pairwise_cons.mp ha
      have pb := List.pairwise_cons.mp hb
      have hij : i = j := by
        rcases Nat.lt_trichotomy i j with hlt | heq | hgt
        · have := h i
          rw [Buffer.read?_cons, if_pos rfl, Buffer.read?_eq_none_of_lt] at this
          · cases this
          · intro c hc
            rcases List.mem_cons.mp hc with rfl | hc
            · exact hlt
            · exact Nat.lt_trans hlt (pb.1 c hc)
        · exact heq
        · have := h j
          rw [Buffer.read?_cons j j, if_pos rfl, Buffer.read?_eq_none_of_lt] at this
          · cases this
          · intro c hc
            rcases List.mem_cons.mp hc with rfl | hc
            · exact hgt
            · exact Nat.lt_trans hgt (pa.1 c hc)
      subst hij
      have hv := h i
      rw [Buffer.read?_cons, Buffer.read?_cons, if_pos rfl, if_pos rfl] at hv
      cases hv
      refine congrArg _ (ih pa.2 pb.2 fun k => ?_)
      rcases Nat.lt_or_ge i k with hk | hk
      · have := h k
        rwa [Buffer.read?_cons, Buffer.read?_cons, if_neg (by omega), if_neg (by omega)] at this
      · rw [Buffer.read?_eq_none_of_lt fun c hc => Nat.lt_of_le_of_lt hk (pa.1 c hc),
          Buffer.read?_eq_none_of_lt fun c hc => Nat.lt_of_le_of_lt hk (pb.1 c hc)]

/-! ### Reads -/

variable {free : Nat → α}

theorem Buffer.draw_of_written {b : Buffer α} {i : Nat} {v : α} (h : b.read? i = some v) (d : Nat) :
    b.draw free i d = (v, d) := by
  simp [Buffer.draw, h]

theorem Buffer.draw_of_unwritten {b : Buffer α} {i : Nat} (h : b.read? i = none) (d : Nat) :
    b.draw free i d = (free d, d + 1) := by
  simp [Buffer.draw, h]

@[simp] theorem Buffer.drawRun_zero (b : Buffer α) (i d : Nat) : b.drawRun free i 0 d = ([], d) := rfl

theorem Buffer.drawRun_succ (b : Buffer α) (i n d : Nat) :
    b.drawRun free i (n + 1) d =
      ((b.draw free i d).1 :: (b.drawRun free (i + 1) n (b.draw free i d).2).1,
        (b.drawRun free (i + 1) n (b.draw free i d).2).2) := rfl

@[simp] theorem Buffer.drawRun_length (b : Buffer α) (i n d : Nat) : (b.drawRun free i n d).1.length = n := by
  induction n generalizing i d with
  | zero => rfl
  | succ n ih => simp [Buffer.drawRun_succ, ih]

/-- A run of reads gives each written element its value, whatever it gives for the others. -/
theorem Buffer.drawRun_written {b : Buffer α} {i n d k : Nat} {v : α} (hk : k < n) (h : b.read? (i + k) = some v) :
    (b.drawRun free i n d).1[k]? = some v := by
  induction n generalizing i d k with
  | zero => omega
  | succ n ih =>
    rw [Buffer.drawRun_succ]
    cases k with
    | zero => simp [Buffer.draw_of_written (free := free) (by simpa using h) d]
    | succ k => simpa using ih (by omega) (by rw [← h]; congr 1; omega)

/-- A run of reads of written elements gives them and draws nothing. -/
theorem Buffer.drawRun_of_written {b : Buffer α} {i d : Nat} {vs : List α}
    (h : ∀ k, k < vs.length → b.read? (i + k) = vs[k]?) : b.drawRun free i vs.length d = (vs, d) := by
  induction vs generalizing i d with
  | nil => rfl
  | cons v vs ih =>
    have h0 : b.read? i = some v := by simpa using h 0 (by simp)
    have hs : b.drawRun free (i + 1) vs.length d = (vs, d) := ih fun k hk => by
      have := h (k + 1) (by simpa using hk)
      simpa [show i + (k + 1) = i + 1 + k by omega] using this
    simp [Buffer.drawRun_succ, Buffer.draw_of_written (free := free) h0, hs]

/-- A run of reads depends on the elements it reads and on nothing else of the buffer. -/
theorem Buffer.drawRun_congr {a b : Buffer α} {i n d : Nat} (h : ∀ k, k < n → a.read? (i + k) = b.read? (i + k)) :
    a.drawRun free i n d = b.drawRun free i n d := by
  induction n generalizing i d with
  | zero => rfl
  | succ n ih =>
    have h0 : a.draw free i d = b.draw free i d := by
      simp only [Buffer.draw, show a.read? i = b.read? i by simpa using h 0 (by omega)]
    rw [Buffer.drawRun_succ, Buffer.drawRun_succ, h0, ih fun k hk => by
      have := h (k + 1) (by omega)
      simpa [show i + (k + 1) = i + 1 + k by omega] using this]

end Sys2Proof.Machine
end

