-- ==== Sys2Proof/Laws/State.lean ====
section
/-! SUPPORT. What each shared update of the state leaves in each field: one lemma per field, all true by unfolding, so that
no later proof unfolds an update. -/

namespace Sys2Proof.Machine

/-! ### STATUS -/

@[simp] theorem Status.started_busy : (Status.started).busy = true := rfl
@[simp] theorem Status.started_done : (Status.started).done = false := rfl
@[simp] theorem Status.started_err : (Status.started).err = false := rfl
@[simp] theorem Status.started_errcode : (Status.started).errcode = 0 := rfl
@[simp] theorem Status.started_termFound : (Status.started).termFound = false := rfl
@[simp] theorem Status.started_trunc : (Status.started).trunc = false := rfl

@[simp] theorem Status.reset_busy : (Status.reset).busy = false := rfl
@[simp] theorem Status.reset_done : (Status.reset).done = false := rfl
@[simp] theorem Status.reset_err : (Status.reset).err = false := rfl
@[simp] theorem Status.reset_errcode : (Status.reset).errcode = 0 := rfl
@[simp] theorem Status.reset_termFound : (Status.reset).termFound = false := rfl
@[simp] theorem Status.reset_trunc : (Status.reset).trunc = false := rfl

@[simp] theorem Status.completed_busy (st : Status) : (st.completed).busy = false := rfl
@[simp] theorem Status.completed_done (st : Status) : (st.completed).done = true := rfl
@[simp] theorem Status.completed_err (st : Status) : (st.completed).err = st.err := rfl
@[simp] theorem Status.completed_errcode (st : Status) : (st.completed).errcode = st.errcode := rfl
@[simp] theorem Status.completed_termFound (st : Status) : (st.completed).termFound = st.termFound := rfl
@[simp] theorem Status.completed_trunc (st : Status) : (st.completed).trunc = st.trunc := rfl

@[simp] theorem Status.raised_busy (e : CommandError) (st : Status) : (st.raised e).busy = false := rfl
@[simp] theorem Status.raised_done (e : CommandError) (st : Status) : (st.raised e).done = true := rfl
@[simp] theorem Status.raised_err (e : CommandError) (st : Status) : (st.raised e).err = true := rfl
@[simp] theorem Status.raised_errcode (e : CommandError) (st : Status) : (st.raised e).errcode = e.code := rfl
@[simp] theorem Status.raised_termFound (e : CommandError) (st : Status) : (st.raised e).termFound = st.termFound := rfl
@[simp] theorem Status.raised_trunc (e : CommandError) (st : Status) : (st.raised e).trunc = st.trunc := rfl

@[simp] theorem Status.decoded_busy (found : Bool) (n : Nat) (st : Status) : (st.decoded found n).busy = st.busy := rfl
@[simp] theorem Status.decoded_done (found : Bool) (n : Nat) (st : Status) : (st.decoded found n).done = st.done := rfl
@[simp] theorem Status.decoded_err (found : Bool) (n : Nat) (st : Status) : (st.decoded found n).err = st.err := rfl
@[simp] theorem Status.decoded_errcode (found : Bool) (n : Nat) (st : Status) : (st.decoded found n).errcode = st.errcode := rfl
@[simp] theorem Status.decoded_termFound (found : Bool) (n : Nat) (st : Status) : (st.decoded found n).termFound = found := rfl
@[simp] theorem Status.decoded_trunc (found : Bool) (n : Nat) (st : Status) : (st.decoded found n).trunc = (!found && decide (n % 8 ≠ 0)) := rfl

/-! ### start_command (R102) -/

@[simp] theorem startCommand_cfg (w : Word) (s : State) : (startCommand w s).cfg = s.cfg := rfl
@[simp] theorem startCommand_status (w : Word) (s : State) : (startCommand w s).status = Status.started := rfl
@[simp] theorem startCommand_pending (w : Word) (s : State) : (startCommand w s).pending = w := rfl
@[simp] theorem startCommand_msgLen (w : Word) (s : State) : (startCommand w s).msgLen = s.msgLen := rfl
@[simp] theorem startCommand_bitLen (w : Word) (s : State) : (startCommand w s).bitLen = s.bitLen := rfl
@[simp] theorem startCommand_pixLen (w : Word) (s : State) : (startCommand w s).pixLen = s.pixLen := rfl
@[simp] theorem startCommand_txtLen (w : Word) (s : State) : (startCommand w s).txtLen = s.txtLen := rfl
@[simp] theorem startCommand_mem (w : Word) (s : State) : (startCommand w s).mem = s.mem := rfl
@[simp] theorem startCommand_draws (w : Word) (s : State) : (startCommand w s).draws = s.draws := rfl
@[simp] theorem startCommand_held (w : Word) (s : State) : (startCommand w s).held = s.held := rfl
@[simp] theorem startCommand_response (w : Word) (s : State) : (startCommand w s).response = s.response := rfl
@[simp] theorem startCommand_host (w : Word) (s : State) : (startCommand w s).host = s.host := rfl
@[simp] theorem startCommand_inputs (w : Word) (s : State) : (startCommand w s).inputs = s.inputs := rfl

/-! ### complete (R106) -/

@[simp] theorem complete_cfg (s : State) : (complete s).cfg = s.cfg := rfl
@[simp] theorem complete_status (s : State) : (complete s).status = s.status.completed := rfl
@[simp] theorem complete_pending (s : State) : (complete s).pending = s.pending := rfl
@[simp] theorem complete_msgLen (s : State) : (complete s).msgLen = s.msgLen := rfl
@[simp] theorem complete_bitLen (s : State) : (complete s).bitLen = s.bitLen := rfl
@[simp] theorem complete_pixLen (s : State) : (complete s).pixLen = s.pixLen := rfl
@[simp] theorem complete_txtLen (s : State) : (complete s).txtLen = s.txtLen := rfl
@[simp] theorem complete_mem (s : State) : (complete s).mem = s.mem := rfl
@[simp] theorem complete_draws (s : State) : (complete s).draws = s.draws := rfl
@[simp] theorem complete_held (s : State) : (complete s).held = s.held := rfl
@[simp] theorem complete_response (s : State) : (complete s).response = s.response := rfl
@[simp] theorem complete_host (s : State) : (complete s).host = s.host := rfl
@[simp] theorem complete_inputs (s : State) : (complete s).inputs = s.inputs := rfl

/-! ### raise (R184) -/

@[simp] theorem raise_cfg (e : CommandError) (s : State) : (raise e s).cfg = s.cfg := rfl
@[simp] theorem raise_status (e : CommandError) (s : State) : (raise e s).status = s.status.raised e := rfl
@[simp] theorem raise_pending (e : CommandError) (s : State) : (raise e s).pending = s.pending := rfl
@[simp] theorem raise_msgLen (e : CommandError) (s : State) : (raise e s).msgLen = s.msgLen := rfl
@[simp] theorem raise_bitLen (e : CommandError) (s : State) : (raise e s).bitLen = s.bitLen := rfl
@[simp] theorem raise_pixLen (e : CommandError) (s : State) : (raise e s).pixLen = s.pixLen := rfl
@[simp] theorem raise_txtLen (e : CommandError) (s : State) : (raise e s).txtLen = s.txtLen := rfl
@[simp] theorem raise_mem (e : CommandError) (s : State) : (raise e s).mem = s.mem := rfl
@[simp] theorem raise_draws (e : CommandError) (s : State) : (raise e s).draws = s.draws := rfl
@[simp] theorem raise_held (e : CommandError) (s : State) : (raise e s).held = s.held := rfl
@[simp] theorem raise_response (e : CommandError) (s : State) : (raise e s).response = s.response := rfl
@[simp] theorem raise_host (e : CommandError) (s : State) : (raise e s).host = s.host := rfl
@[simp] theorem raise_inputs (e : CommandError) (s : State) : (raise e s).inputs = s.inputs := rfl

/-! ### The reset input (R201) -/

@[simp] theorem takeReset_cfg (s : State) : (takeReset s).cfg = s.cfg := rfl
@[simp] theorem takeReset_status (s : State) : (takeReset s).status = Status.reset := rfl
@[simp] theorem takeReset_pending (s : State) : (takeReset s).pending = 0 := rfl
@[simp] theorem takeReset_msgLen (s : State) : (takeReset s).msgLen = 0 := rfl
@[simp] theorem takeReset_bitLen (s : State) : (takeReset s).bitLen = 0 := rfl
@[simp] theorem takeReset_pixLen (s : State) : (takeReset s).pixLen = 0 := rfl
@[simp] theorem takeReset_txtLen (s : State) : (takeReset s).txtLen = 0 := rfl
@[simp] theorem takeReset_mem (s : State) : (takeReset s).mem = Memory.reset := rfl
@[simp] theorem takeReset_draws (s : State) : (takeReset s).draws = s.draws := rfl
@[simp] theorem takeReset_held (s : State) : (takeReset s).held = none := rfl
@[simp] theorem takeReset_response (s : State) : (takeReset s).response = none := rfl
@[simp] theorem takeReset_host (s : State) : (takeReset s).host = HostState.start s.host.program := rfl
@[simp] theorem takeReset_inputs (s : State) : (takeReset s).inputs = s.inputs := rfl

/-- `raise` changes STATUS and nothing else (R184). -/
theorem raise_eq (e : CommandError) (s : State) : raise e s = { s with status := (raise e s).status } := rfl

end Sys2Proof.Machine
end

