-- ==== Sys2Proof/Laws/Values.lean ====
section
/-! SUPPORT. The laws of the value conversions: the bits of a character (00_scope.md R12), the carrier byte
(42_channel_embedder.md R154, R161), and the lanes of a word (20_memory.md R53). -/

namespace Sys2Proof.Machine

@[simp] theorem bits8_length (c : Byte) : (bits8 c).length = 8 := rfl

theorem bits8_getElem? (c : Byte) {b : Nat} (h : b < 8) : (bits8 c)[b]? = some (c.getLsbD (7 - b)) := by
  interval_cases b <;> rfl

/-- A byte read back from its bits: the b-th bit of the group is bit `7 - b` of the byte. -/
theorem byte8_getLsbD (g : List Bit) (hg : g.length = 8) {b : Nat} (h : b < 8) :
    some ((byte8 g).getLsbD (7 - b)) = g[b]? := by
  obtain ⟨x0, x1, x2, x3, x4, x5, x6, x7, rfl⟩ : ∃ x0 x1 x2 x3 x4 x5 x6 x7, g = [x0, x1, x2, x3, x4, x5, x6, x7] := by
    match g, hg with
    | [x0, x1, x2, x3, x4, x5, x6, x7], _ => exact ⟨x0, x1, x2, x3, x4, x5, x6, x7, rfl⟩
  interval_cases b <;> revert x0 x1 x2 x3 x4 x5 x6 x7 <;> decide

theorem byte8_bits8_eq (c : Byte) : byte8 (bits8 c) = c := by
  refine BitVec.eq_of_getLsbD_eq fun i hi => ?_
  have h := byte8_getLsbD (bits8 c) rfl (b := 7 - i) (by omega)
  rw [bits8_getElem? c (by omega), show 7 - (7 - i) = i by omega] at h
  exact Option.some.inj h

theorem injectBit_low (b : Byte) (x : Bit) : (injectBit b x).getLsbD 0 = x := by
  cases x <;> simp [injectBit]

theorem injectBit_high (b : Byte) (x : Bit) {i : Nat} (h : 1 ≤ i) : (injectBit b x).getLsbD i = b.getLsbD i := by
  rcases Nat.lt_or_ge i 8 with hi | hi
  · interval_cases i <;> cases x <;> simp [injectBit]
  · simp [BitVec.getLsbD_of_ge _ _ hi]

/-- Injecting a bit twice is injecting it once. -/
theorem injectBit_twice (b : Byte) (x : Bit) : injectBit (injectBit b x) x = injectBit b x := by
  refine BitVec.eq_of_getLsbD_eq fun i _ => ?_
  rcases Nat.eq_zero_or_pos i with rfl | hi
  · rw [injectBit_low, injectBit_low]
  · rw [injectBit_high _ _ hi]

@[simp] theorem carriedBit_injectBit (b : Byte) (x : Bit) : carriedBit (injectBit b x) = x := injectBit_low b x

theorem bitstreamOf_nil : bitstreamOf [] = [] := rfl

theorem bitstreamOf_cons (c : Byte) (cs : List Byte) : bitstreamOf (c :: cs) = bits8 c ++ bitstreamOf cs := rfl

@[simp] theorem bitstreamOf_length (cs : List Byte) : (bitstreamOf cs).length = 8 * cs.length := by
  induction cs with
  | nil => rfl
  | cons c cs ih => rw [bitstreamOf_cons, List.length_append, ih, bits8_length, List.length_cons]; omega

/-- Bit `8k + b` of a bitstream is bit `7 - b` of character `k` (41_bitstream_codec.md R123). -/
theorem bitstreamOf_getElem? (cs : List Byte) {k b : Nat} (hb : b < 8) :
    (bitstreamOf cs)[8 * k + b]? = cs[k]?.map fun c => c.getLsbD (7 - b) := by
  induction cs generalizing k with
  | nil => simp [bitstreamOf_nil]
  | cons c cs ih =>
    rw [bitstreamOf_cons]
    cases k with
    | zero => rw [List.getElem?_append_left (by simp; omega)]; simp [bits8_getElem? c hb]
    | succ k =>
      rw [List.getElem?_append_right (by simp; omega), bits8_length,
        show 8 * (k + 1) + b - 8 = 8 * k + b by omega, ih]
      simp

@[simp] theorem terminator_length : terminator.length = 4 := rfl

/-! ### Lanes -/

@[simp] theorem bytesOfWord_length (w : Word) : (bytesOfWord w).length = 4 := rfl

theorem bytesOfWord_getElem? (w : Word) {n : Nat} (h : n < 4) : (bytesOfWord w)[n]? = some (w.extractLsb' (8 * n) 8) := by
  interval_cases n <;> rfl

theorem wordOfBytes_getLsbD (b0 b1 b2 b3 : Byte) (i : Nat) :
    (wordOfBytes b0 b1 b2 b3).getLsbD i =
      if i < 8 then b0.getLsbD i else if i < 16 then b1.getLsbD (i - 8)
      else if i < 24 then b2.getLsbD (i - 16) else b3.getLsbD (i - 24) := by
  refine (BitVec.getLsbD_append (x := b3 ++ b2 ++ b1) (y := b0)).trans ?_
  rw [BitVec.getLsbD_append, BitVec.getLsbD_append]
  simp only [Nat.sub_sub, Nat.reduceAdd]
  split_ifs <;> first | rfl | (exfalso; omega)

/-- Lane `n` of a word made of four bytes is its n-th byte (R53). -/
theorem wordOfBytes_lane (b0 b1 b2 b3 : Byte) {n : Nat} (h : n < 4) :
    some ((wordOfBytes b0 b1 b2 b3).extractLsb' (8 * n) 8) = [b0, b1, b2, b3][n]? := by
  interval_cases n <;>
    (refine congrArg some (BitVec.eq_of_getLsbD_eq fun i hi => ?_)
     rw [BitVec.getLsbD_extractLsb', wordOfBytes_getLsbD]
     interval_cases i <;> rfl)

/-- A word is made of its four lanes. -/
theorem wordOfBytes_bytesOfWord (w : Word) :
    wordOfBytes (w.extractLsb' 0 8) (w.extractLsb' 8 8) (w.extractLsb' 16 8) (w.extractLsb' 24 8) = w := by
  refine BitVec.eq_of_getLsbD_eq fun i hi => ?_
  rw [wordOfBytes_getLsbD]
  interval_cases i <;> simp

/-- The value of a command word is its operation code (30_encoding.md R80): RES is 0. -/
theorem encode_toNat (i : Instr) : (encode i).toNat = (opc i).toNat := by cases i <;> rfl

/-! ### The word view of STATUS -/

/-- Bit by bit, the word the host reads at 0x004 (10_state.md R24). -/
theorem Status.toWord_getLsbD (st : Status) (i : Nat) :
    st.toWord.getLsbD i =
      if i = 0 then st.busy else if i = 1 then st.done else if i = 2 then st.err
      else if 4 ≤ i ∧ i < 8 then st.errcode.getLsbD (i - 4) else if i = 8 then st.termFound
      else if i = 9 then st.trunc else false := by
  refine (BitVec.getLsbD_append (x := 0#22 ++ BitVec.ofBool st.trunc ++ BitVec.ofBool st.termFound ++ st.errcode
    ++ 0#1 ++ BitVec.ofBool st.err ++ BitVec.ofBool st.done) (y := BitVec.ofBool st.busy)).trans ?_
  simp only [BitVec.getLsbD_append]
  rcases Nat.lt_or_ge i 10 with h | h
  · interval_cases i <;> simp
  · simp only [show ¬ i < 1 by omega, show ¬ i - 1 < 1 by omega, show ¬ i - 1 - 1 < 1 by omega,
      show ¬ i - 1 - 1 - 1 < 1 by omega, show ¬ i - 1 - 1 - 1 - 1 < 4 by omega,
      show ¬ i - 1 - 1 - 1 - 1 - 4 < 1 by omega, show ¬ i - 1 - 1 - 1 - 1 - 4 - 1 < 1 by omega,
      show i ≠ 0 by omega, show i ≠ 1 by omega, show i ≠ 2 by omega, show ¬ (4 ≤ i ∧ i < 8) by omega,
      show i ≠ 8 by omega, show i ≠ 9 by omega, if_false]
    simp

end Sys2Proof.Machine
end

