-- ==== Sys2Proof/Laws/Bus.lean ====
section
/-! SUPPORT. What the host port can do, said once: a read changes the model's counter alone, a write changes the register or
the buffer it names, a held transaction changes nothing, and every write keeps the buffers canonical and in bounds. -/

namespace Sys2Proof.Machine

/-! ### The register map -/

theorem registerAt_offset (r : RegName) : registerAt r.offset = some r := by cases r <;> rfl

theorem regionOf_offset (r : RegName) : regionOf r.offset = 0 := by cases r <;> rfl

theorem registerAt_eq_some {a : Word} {r : RegName} (h : registerAt a = some r) : r.offset = a := by
  simpa using List.find?_some h

/-- The access classes of the map are the ones the accesses obey (20_memory.md R63). -/
theorem readRegister_eq_none_iff (s : State) (r : RegName) : readRegister s r = none ↔ r.access = .wo := by
  cases r <;> simp [readRegister, RegName.access]

theorem writeRegister_eq_none_iff (s : State) (v : Word) (r : RegName) :
    writeRegister s v r = none ↔ r.access = .ro := by
  cases r <;> simp [writeRegister, RegName.access]

theorem memRead_register (s : State) (r : RegName) :
    memRead s r.offset = (readRegister s r).map (·, s.draws) := by
  simp [memRead, regionOf_offset, registerAt_offset]

theorem memWrite_register (s : State) (v : Word) (r : RegName) : memWrite s r.offset v = writeRegister s v r := by
  simp [memWrite, regionOf_offset, registerAt_offset]

/-! ### Addresses as numbers -/

/-- A transaction is well formed when it is a word at an address that is a multiple of 4 (R51, R52). -/
theorem wellFormed_iff (tx : BusTx) : tx.wellFormed = true ↔ tx.size = 4 ∧ tx.addr.toNat % 4 = 0 := by
  simp only [BusTx.wellFormed, Bool.and_eq_true, decide_eq_true_eq]
  refine and_congr_right fun _ => ?_
  rw [← BitVec.toNat_inj]
  simp

theorem regionOf_toNat (a : Word) : (regionOf a).toNat = a.toNat / 2 ^ 28 := by
  have := a.isLt
  simp [regionOf, Nat.shiftRight_eq_div_pow]
  omega

theorem regionOf_eq_zero_iff (a : Word) : regionOf a = 0 ↔ a.toNat / 2 ^ 28 = 0 := by
  rw [← regionOf_toNat, ← BitVec.toNat_inj]
  rfl

theorem windowOffset_eq (a : Word) : windowOffset a = a.toNat % 2 ^ 28 := by
  simp [windowOffset]

/-- An address inside the 256 MiB of a window's region is an offset of that window (R56, R57). -/
theorem window_of_base {a : Word} {w : Window} {off : Nat} (h : a.toNat = windowBase w + off) (ho : off < 2 ^ 28) :
    windowAt a = some w ∧ windowOffset a = off ∧ regionOf a ≠ 0 := by
  simp only [windowAt, regionOf_toNat, windowOffset_eq, ne_eq, regionOf_eq_zero_iff]
  cases w <;> simp only [windowBase] at h
  · rw [show a.toNat / 2 ^ 28 = 1 by omega]; exact ⟨rfl, by omega, by decide⟩
  · rw [show a.toNat / 2 ^ 28 = 2 by omega]; exact ⟨rfl, by omega, by decide⟩
  · rw [show a.toNat / 2 ^ 28 = 3 by omega]; exact ⟨rfl, by omega, by decide⟩
  · rw [show a.toNat / 2 ^ 28 = 4 by omega]; exact ⟨rfl, by omega, by decide⟩

/-- In a legal configuration every window fits its region (00_scope.md R6, K4). -/
theorem Window.size_le {c : Config} (h : c.Legal) (w : Window) : w.size c ≤ 2 ^ 28 := by
  obtain ⟨-, -, -, h1, h2, h3, h4⟩ := h
  cases w <;> assumption

/-! ### Windows -/

theorem windowWrite_eq {s t : State} {w : Window} {off : Nat} {v : Word} (h : windowWrite s w off v = some t) :
    off < w.size s.cfg ∧ w.hostWrites = true ∧
      t = { s with mem := writeLanes s.cfg w s.mem off ((bytesOfWord v).take (lanesAt (w.size s.cfg) off)) } := by
  simp only [windowWrite] at h
  split at h
  · cases h
  · split at h
    · next h1 h2 => exact ⟨Nat.not_le.mp h1, h2, (Option.some.inj h).symm⟩
    · cases h

theorem writeLane_wf {c : Config} {m : Memory} (h : m.wf) (w : Window) (j : Nat) (v : Byte) :
    (writeLane c m w j v).wf := by
  obtain ⟨h1, h2, h3, h4⟩ := h
  cases w
  · exact ⟨Buffer.rising_write h1 _ _, h2, h3, h4⟩
  · exact ⟨h1, h2, h3, h4⟩
  · exact ⟨h1, h2, Buffer.rising_writeFrom h3 _ _, h4⟩
  · exact ⟨h1, h2, h3, Buffer.rising_write h4 _ _⟩

theorem writeLane_inBounds {c : Config} {m : Memory} (h : m.InBounds c) {w : Window} {j : Nat} (hj : j < w.size c)
    (v : Byte) : (writeLane c m w j v).InBounds c := by
  obtain ⟨h1, h2, h3, h4⟩ := h
  cases w
  · exact ⟨Buffer.below_write h1 hj _, h2, h3, h4⟩
  · exact ⟨h1, h2, h3, h4⟩
  · refine ⟨h1, h2, Buffer.below_writeFrom h3 (.inr ?_), h4⟩
    simp only [Window.size] at hj
    simp only [List.length_take, bits8_length, bitsInByte]
    omega
  · exact ⟨h1, h2, h3, Buffer.below_write h4 hj _⟩

theorem writeLanes_wf {c : Config} {w : Window} {m : Memory} (h : m.wf) (j : Nat) (vs : List Byte) :
    (writeLanes c w m j vs).wf := by
  induction vs generalizing m j with
  | nil => exact h
  | cons v vs ih => exact ih (writeLane_wf h w j v) (j + 1)

theorem writeLanes_inBounds {c : Config} {w : Window} {m : Memory} (h : m.InBounds c) {j : Nat} {vs : List Byte}
    (hj : j + vs.length ≤ w.size c) : (writeLanes c w m j vs).InBounds c := by
  induction vs generalizing m j with
  | nil => exact h
  | cons v vs ih =>
    rw [List.length_cons] at hj
    exact ih (writeLane_inBounds h (by omega) v) (by omega)

/-- A host write touches the memory of its window alone; the TXT buffer never. -/
theorem writeLanes_txt (c : Config) (w : Window) (m : Memory) (j : Nat) (vs : List Byte) :
    (writeLanes c w m j vs).txt = m.txt := by
  induction vs generalizing m j with
  | nil => rfl
  | cons v vs ih =>
    rw [writeLanes, ih]
    cases w <;> rfl

/-! ### The access primitives -/

/-- Everything a host write can do (R61): start a command, set a length register, or write the bytes of a window. -/
theorem memWrite_cases {s t : State} {a v : Word} (h : memWrite s a v = some t) :
    t = startCommand v s ∨ t = { s with msgLen := v } ∨ t = { s with bitLen := v } ∨ t = { s with pixLen := v } ∨
    (∃ w off vs, off + vs.length ≤ w.size s.cfg ∧ w.hostWrites = true ∧
      t = { s with mem := writeLanes s.cfg w s.mem off vs }) := by
  simp only [memWrite] at h
  split at h
  · obtain ⟨r, -, h⟩ := Option.bind_eq_some_iff.mp h
    cases r <;> simp [writeRegister] at h <;> subst h <;> simp
  · obtain ⟨w, -, h⟩ := Option.bind_eq_some_iff.mp h
    obtain ⟨h1, h2, h3⟩ := windowWrite_eq h
    refine .inr (.inr (.inr (.inr ⟨w, windowOffset a, _, ?_, h2, h3⟩)))
    simp only [List.length_take, bytesOfWord_length, lanesAt]
    omega

theorem memWrite_keeps_memory {s t : State} {a v : Word} (hw : s.mem.wf) (hb : s.mem.InBounds s.cfg)
    (h : memWrite s a v = some t) : t.mem.wf ∧ t.mem.InBounds t.cfg := by
  rcases memWrite_cases h with rfl | rfl | rfl | rfl | ⟨w, off, vs, h1, -, rfl⟩
  · exact ⟨hw, hb⟩
  · exact ⟨hw, hb⟩
  · exact ⟨hw, hb⟩
  · exact ⟨hw, hb⟩
  · exact ⟨writeLanes_wf hw _ _, writeLanes_inBounds hb h1⟩

/-- A malformed transaction gets `ERROR` (R51, R52). -/
theorem respond_malformed {tx : BusTx} (s : State) (h : tx.wellFormed = false) : respond tx s = busError s := by
  simp [respond, h]

theorem respond_read_okay {s : State} {a v : Word} {d : Nat} (hw : BusTx.wellFormed ⟨.read, a, 4⟩ = true)
    (h : memRead s a = some (v, d)) : respond ⟨.read, a, 4⟩ s = (.okayRead v, { s with draws := d }) := by
  simp [respond, hw, h]

theorem respond_read_error {s : State} {a : Word} (hw : BusTx.wellFormed ⟨.read, a, 4⟩ = true)
    (h : memRead s a = none) : respond ⟨.read, a, 4⟩ s = busError s := by
  simp [respond, hw, h]

theorem respond_write_okay {s t : State} {a v : Word} (hw : BusTx.wellFormed ⟨.write v, a, 4⟩ = true)
    (h : memWrite s a v = some t) : respond ⟨.write v, a, 4⟩ s = (.okayWrite, t) := by
  simp [respond, hw, h]

theorem respond_write_error {s : State} {a v : Word} (hw : BusTx.wellFormed ⟨.write v, a, 4⟩ = true)
    (h : memWrite s a v = none) : respond ⟨.write v, a, 4⟩ s = busError s := by
  simp [respond, hw, h]

/-- A read of a readable register gives its value and changes nothing (R60). -/
theorem respond_register {s : State} {r : RegName} {v : Word} (h : readRegister s r = some v) :
    respond ⟨.read, r.offset, 4⟩ s = (.okayRead v, s) :=
  respond_read_okay (by cases r <;> rfl) (by rw [memRead_register, h]; rfl)

/-- Everything a response can do to the state (R59 to R61): nothing but the model's counter, or what a host write does. -/
theorem respond_cases (tx : BusTx) (s : State) :
    (∃ r d, respond tx s = (r, { s with draws := d }) ∧ r ≠ .okayWrite) ∨
    (∃ v t, tx.kind = .write v ∧ memWrite s tx.addr v = some t ∧ respond tx s = (.okayWrite, t)) := by
  simp only [respond]
  split
  · split
    · split
      · exact .inl ⟨_, _, rfl, by simp⟩
      · exact .inl ⟨_, _, rfl, by simp⟩
    · split
      · next hk _ t hw => exact .inr ⟨_, _, hk, hw, rfl⟩
      · exact .inl ⟨_, _, rfl, by simp⟩
  · exact .inl ⟨_, _, rfl, by simp⟩

/-! ### Delivering -/

@[simp] theorem deliver_cfg (o : Origin) (r : Response) (s : State) : (deliver o r s).cfg = s.cfg := by cases o <;> rfl
@[simp] theorem deliver_status (o : Origin) (r : Response) (s : State) : (deliver o r s).status = s.status := by
  cases o <;> rfl
@[simp] theorem deliver_pending (o : Origin) (r : Response) (s : State) : (deliver o r s).pending = s.pending := by
  cases o <;> rfl
@[simp] theorem deliver_msgLen (o : Origin) (r : Response) (s : State) : (deliver o r s).msgLen = s.msgLen := by
  cases o <;> rfl
@[simp] theorem deliver_bitLen (o : Origin) (r : Response) (s : State) : (deliver o r s).bitLen = s.bitLen := by
  cases o <;> rfl
@[simp] theorem deliver_pixLen (o : Origin) (r : Response) (s : State) : (deliver o r s).pixLen = s.pixLen := by
  cases o <;> rfl
@[simp] theorem deliver_txtLen (o : Origin) (r : Response) (s : State) : (deliver o r s).txtLen = s.txtLen := by
  cases o <;> rfl
@[simp] theorem deliver_mem (o : Origin) (r : Response) (s : State) : (deliver o r s).mem = s.mem := by cases o <;> rfl
@[simp] theorem deliver_draws (o : Origin) (r : Response) (s : State) : (deliver o r s).draws = s.draws := by
  cases o <;> rfl
@[simp] theorem deliver_held (o : Origin) (r : Response) (s : State) : (deliver o r s).held = s.held := by cases o <;> rfl
@[simp] theorem deliver_inputs (o : Origin) (r : Response) (s : State) : (deliver o r s).inputs = s.inputs := by
  cases o <;> rfl
@[simp] theorem deliver_response (o : Origin) (r : Response) (s : State) : (deliver o r s).response = some r := by
  cases o <;> rfl

@[simp] theorem HostState.load_program (h : HostState) (dst : Option Reg) (v : Word) :
    (h.load dst v).program = h.program := by cases dst <;> rfl

@[simp] theorem HostState.receive_program (h : HostState) (dst : Option Reg) (r : Response) :
    (h.receive dst r).program = h.program := by cases r <;> simp [HostState.receive]

@[simp] theorem deliver_program (o : Origin) (r : Response) (s : State) :
    (deliver o r s).host.program = s.host.program := by cases o <;> simp [deliver]

theorem answer_eq (h : Held) (s : State) : answer h s = deliver h.origin (respond h.tx s).1 (respond h.tx s).2 := rfl

theorem issue_held {h : Held} {s : State} (hh : isHeld h.tx s = true) : issue h s = { s with held := some h } := by
  simp [issue, hh]

theorem issue_not_held {h : Held} {s : State} (hh : isHeld h.tx s = false) : issue h s = answer h s := by
  simp [issue, hh]

/-- A transaction that is held while busy is one the port may hold (R62). -/
theorem isHeld_legal {h : Held} {s : State} (hh : isHeld h.tx s = true) : h.Legal := by
  simp [isHeld] at hh
  exact ⟨hh.1.2, fun ⟨h1, h2⟩ => hh.2.elim (· h1) (· h2)⟩

end Sys2Proof.Machine
end

