-- ==== Sys2Proof/Laws/Operands.lean ====
section
/-! SUPPORT. What the commands' operands are: the message SER reads, the characters DES decodes, the pixels EMB leaves, the
bits EXT carries over. -/

namespace Sys2Proof.Machine

/-! ### SER -/

/-- SER reads `MSG_LEN` characters, each with its written value, and the terminator follows them. -/
theorem messageWithTerminator_spec (s : State) :
    ∃ m : List Byte, s.messageWithTerminator.1 = m ++ terminator ∧ m.length = s.msgLen.toNat ∧
      ∀ k c, k < m.length → s.mem.msg.read? k = some c → m[k]? = some c := by
  refine ⟨(s.mem.msg.drawRun Config.freeByte 0 s.msgLen.toNat s.draws).1, rfl, by simp, fun k c hk hc => ?_⟩
  rw [Buffer.drawRun_length] at hk
  exact Buffer.drawRun_written hk (by simpa using hc)

/-! ### DES -/

theorem endsWithTerminator_iff (r : List Byte) :
    endsWithTerminator r = true ↔ 4 ≤ r.length ∧ r.drop (r.length - 4) = terminator := by
  simp [endsWithTerminator]

theorem decodeGroups_zero (bit : Buffer Bit) (k : Nat) (r : List Byte) (d : Nat) :
    decodeGroups bit 0 k r d = (r, false, d) := rfl

theorem decodeGroups_succ (bit : Buffer Bit) (n k : Nat) (r : List Byte) (d : Nat) :
    decodeGroups bit (n + 1) k r d =
      if endsWithTerminator (r ++ [byte8 (bit.drawRun Config.freeBit (8 * k) 8 d).1]) then
        (r ++ [byte8 (bit.drawRun Config.freeBit (8 * k) 8 d).1], true, (bit.drawRun Config.freeBit (8 * k) 8 d).2)
      else
        decodeGroups bit n (k + 1) (r ++ [byte8 (bit.drawRun Config.freeBit (8 * k) 8 d).1])
          (bit.drawRun Config.freeBit (8 * k) 8 d).2 := rfl

/-- Everything the decode loop can do: it appends at most `n` characters `cs`, exactly `n` when it finds no terminator; it
stops at the first character that completes the terminator; and each character has the bits that are written. -/
theorem decodeGroups_spec (bit : Buffer Bit) (n k : Nat) (r : List Byte) (d : Nat) :
    ∃ cs : List Byte, (decodeGroups bit n k r d).1 = r ++ cs ∧ cs.length ≤ n ∧
      ((decodeGroups bit n k r d).2.1 = false → cs.length = n) ∧
      ((decodeGroups bit n k r d).2.1 = true → endsWithTerminator (r ++ cs) = true) ∧
      (∀ j, j < cs.length → (j + 1 < cs.length ∨ (decodeGroups bit n k r d).2.1 = false) →
        endsWithTerminator (r ++ cs.take (j + 1)) = false) ∧
      (∀ j b x, j < cs.length → b < 8 → bit.read? (8 * (k + j) + b) = some x →
        cs[j]?.map (fun c => c.getLsbD (7 - b)) = some x) := by
  induction n generalizing k r d with
  | zero => exact ⟨[], by simp [decodeGroups_zero]⟩
  | succ n ih =>
    rw [decodeGroups_succ]
    have hlen : (bit.drawRun Config.freeBit (8 * k) 8 d).1.length = 8 := Buffer.drawRun_length ..
    have hfirst : ∀ b x, b < 8 → bit.read? (8 * k + b) = some x →
        (byte8 (bit.drawRun Config.freeBit (8 * k) 8 d).1).getLsbD (7 - b) = x := by
      intro b x hb hx
      have h := byte8_getLsbD _ hlen hb
      rw [Buffer.drawRun_written hb hx] at h
      exact Option.some.inj h
    generalize byte8 (bit.drawRun Config.freeBit (8 * k) 8 d).1 = c at hfirst ⊢
    by_cases hend : endsWithTerminator (r ++ [c]) = true
    · rw [if_pos hend]
      refine ⟨[c], rfl, by simp, by simp, fun _ => hend, ?_, ?_⟩
      · intro j hj h
        simp at hj h
      · intro j b x hj hb hx
        obtain rfl : j = 0 := by simpa using hj
        simpa using hfirst b x hb (by simpa using hx)
    · rw [if_neg hend]
      obtain ⟨cs, h1, h2, h3, h4, h5, h6⟩ := ih (k + 1) (r ++ [c]) (bit.drawRun Config.freeBit (8 * k) 8 d).2
      refine ⟨c :: cs, by simpa using h1, by simpa using h2, fun hf => by simpa using h3 hf,
        fun hf => by simpa using h4 hf, ?_, ?_⟩
      · intro j hj h
        cases j with
        | zero => simpa using hend
        | succ j => simpa using h5 j (by simpa using hj) (by simpa using h)
      · intro j b x hj hb hx
        cases j with
        | zero => simpa using hfirst b x hb (by simpa using hx)
        | succ j => simpa using h6 j b x (by simpa using hj) hb (by rw [← hx]; congr 1; omega)

/-- The decode loop depends on the bits of the groups it decodes and on nothing else (R136). -/
theorem decodeGroups_congr {a b : Buffer Bit} {n k d : Nat} {r : List Byte} (hr : r.length = k)
    (h : ∀ i, 8 * k ≤ i → i < 8 * (decodeGroups a n k r d).1.length → a.read? i = b.read? i) :
    decodeGroups b n k r d = decodeGroups a n k r d := by
  induction n generalizing k r d with
  | zero => rfl
  | succ n ih =>
    have hle : k < (decodeGroups a (n + 1) k r d).1.length := by
      rw [decodeGroups_succ]
      split
      · simp [hr]
      · obtain ⟨cs, h1, -⟩ := decodeGroups_spec a n (k + 1)
          (r ++ [byte8 (a.drawRun Config.freeBit (8 * k) 8 d).1]) (a.drawRun Config.freeBit (8 * k) 8 d).2
        rw [h1]
        simp [hr]
    have hg : b.drawRun Config.freeBit (8 * k) 8 d = a.drawRun Config.freeBit (8 * k) 8 d :=
      Buffer.drawRun_congr fun j hj => (h (8 * k + j) (by omega) (by omega)).symm
    rw [decodeGroups_succ] at h ⊢
    rw [decodeGroups_succ, hg]
    split at h
    · next hend => rw [if_pos hend, if_pos hend]
    · next hend =>
      rw [if_neg hend, if_neg hend]
      exact ih (by simp [hr]) fun i hi hi2 => h i (by omega) hi2

/-- On written characters `cs`, of which the first `m` are the first to end with the terminator, the loop decodes exactly
those, finds it, and draws nothing. -/
theorem decodeGroups_written {bit : Buffer Bit} {cs r : List Byte} {n k m d : Nat} (hm : 0 < m) (hmn : m ≤ n)
    (hmc : m ≤ cs.length)
    (hbits : ∀ j, j < 8 * m → bit.read? (8 * k + j) = (bitstreamOf cs)[j]?)
    (hend : endsWithTerminator (r ++ cs.take m) = true)
    (hfirst : ∀ j, 0 < j → j < m → endsWithTerminator (r ++ cs.take j) = false) :
    decodeGroups bit n k r d = (r ++ cs.take m, true, d) := by
  induction cs generalizing n k m r d with
  | nil => simp at hmc; omega
  | cons c cs ih =>
    obtain ⟨n, rfl⟩ : ∃ n', n = n' + 1 := ⟨n - 1, by omega⟩
    have hg : bit.drawRun Config.freeBit (8 * k) 8 d = (bits8 c, d) := by
      refine Buffer.drawRun_of_written (vs := bits8 c) fun j hj => ?_
      have hj : j < 8 := by simpa using hj
      rw [hbits j (by omega), bitstreamOf_cons, List.getElem?_append_left (by simpa using hj)]
    rw [decodeGroups_succ, hg, byte8_bits8_eq]
    by_cases h1 : m = 1
    · subst h1
      have hend : endsWithTerminator (r ++ [c]) = true := by simpa using hend
      simp [hend]
    · have hc : endsWithTerminator (r ++ [c]) = false := by simpa using hfirst 1 (by omega) (by omega)
      obtain ⟨m, rfl⟩ : ∃ m', m = m' + 1 := ⟨m - 1, by omega⟩
      rw [hc, if_neg (by simp), ih (m := m) (by omega) (by omega) (by simpa using hmc)]
      · simp
      · intro j hj
        rw [show 8 * (k + 1) + j = 8 * k + (8 + j) by omega, hbits (8 + j) (by omega), bitstreamOf_cons,
          List.getElem?_append_right (by simp), bits8_length, Nat.add_sub_cancel_left]
      · simpa using hend
      · intro j hj hjm
        simpa using hfirst (j + 1) (by omega) (by omega)

/-! ### EMB -/

theorem embedBits_zero (bit : Buffer Bit) (i : Nat) (pix : Buffer Byte) (d : Nat) :
    embedBits bit 0 i pix d = (pix, d) := rfl

theorem embedBits_succ (bit : Buffer Bit) (n i : Nat) (pix : Buffer Byte) (d : Nat) :
    embedBits bit (n + 1) i pix d =
      embedBits bit n (i + 1)
        (pix.write i (injectBit (pix.draw Config.freeByte i d).1
          (bit.draw Config.freeBit i (pix.draw Config.freeByte i d).2).1))
        (bit.draw Config.freeBit i (pix.draw Config.freeByte i d).2).2 := rfl

/-- Everything the injection loop can do: outside its carriers nothing changes; each carrier byte is what was read there
with its bit 0 replaced by the bit read. -/
theorem embedBits_read? (bit : Buffer Bit) (n i : Nat) (pix : Buffer Byte) (d k : Nat) :
    ((k < i ∨ i + n ≤ k) → (embedBits bit n i pix d).1.read? k = pix.read? k) ∧
    (i ≤ k → k < i + n → ∃ b x, (embedBits bit n i pix d).1.read? k = some (injectBit b x) ∧
      (∀ b0, pix.read? k = some b0 → b = b0) ∧ (∀ x0, bit.read? k = some x0 → x = x0)) := by
  induction n generalizing i pix d with
  | zero => exact ⟨fun _ => rfl, fun h1 h2 => by omega⟩
  | succ n ih =>
    rw [embedBits_succ]
    generalize hb : (pix.draw Config.freeByte i d).1 = b
    generalize hx : (bit.draw Config.freeBit i (pix.draw Config.freeByte i d).2).1 = x
    generalize (bit.draw Config.freeBit i (pix.draw Config.freeByte i d).2).2 = d2
    obtain ⟨ho, hi⟩ := ih (i + 1) (pix.write i (injectBit b x)) d2
    refine ⟨fun hk => ?_, fun h1 h2 => ?_⟩
    · rw [ho (by omega), Buffer.read?_write_of_ne _ _ (by omega)]
    · by_cases hik : k = i
      · subst hik
        refine ⟨b, x, by rw [ho (by omega), Buffer.read?_write_self], fun b0 h0 => ?_, fun x0 h0 => ?_⟩
        · rw [Buffer.draw_of_written h0] at hb
          exact hb.symm
        · rw [Buffer.draw_of_written h0] at hx
          exact hx.symm
      · have := hi (by omega) (by omega)
        rwa [Buffer.read?_write_of_ne _ _ hik] at this

theorem embedBits_rising (bit : Buffer Bit) (n i : Nat) {pix : Buffer Byte} (d : Nat) (h : pix.Rising) :
    (embedBits bit n i pix d).1.Rising := by
  induction n generalizing i pix d with
  | zero => exact h
  | succ n ih => exact ih _ _ (Buffer.rising_write h _ _)

theorem embedBits_below (bit : Buffer Bit) {n i c : Nat} {pix : Buffer Byte} (d : Nat) (h : pix.Below c)
    (hn : i + n ≤ c) : (embedBits bit n i pix d).1.Below c := by
  induction n generalizing i pix d with
  | zero => exact h
  | succ n ih => exact ih _ (Buffer.below_write h (by omega) _) (by omega)

/-! ### EXT -/

@[simp] theorem carriedBits_length (s : State) : s.carriedBits.1.length = s.pixLen.toNat := by
  show (List.map carriedBit _).length = _
  simp

/-- EXT carries over bit 0 of every written carrier byte (R161). -/
theorem carriedBits_written (s : State) {i : Nat} {b : Byte} (hi : i < s.pixLen.toNat)
    (hb : s.mem.pix.read? i = some b) : s.carriedBits.1[i]? = some (carriedBit b) := by
  show (List.map carriedBit _)[i]? = _
  rw [List.getElem?_map, Buffer.drawRun_written hi (by simpa using hb)]
  rfl

end Sys2Proof.Machine
end

