-- ==== Sys2Proof/Laws/Commands.lean ====
section
/-! SUPPORT. What the four meanings and the ENGINE's step can do, said once: a command either raises, and then changes
STATUS alone, or writes its results and completes. -/

namespace Sys2Proof.Machine

theorem execSer_out {s : State} (h : s.cfg.msgCap < s.msgLen.toNat) : execSer s = .next (raise .lengthRange s) := by
  simp [execSer, State.msgLenOut, h]

theorem execSer_in {s : State} (h : s.msgLen.toNat ≤ s.cfg.msgCap) :
    execSer s = .next (complete { s with
      mem := { s.mem with bit := s.mem.bit.writeFrom 0 (bitstreamOf s.messageWithTerminator.1) }
      bitLen := BitVec.ofNat 32 (8 * (s.msgLen.toNat + 4))
      draws := s.messageWithTerminator.2 }) := by
  simp [execSer, State.msgLenOut, Nat.not_lt.mpr h]

theorem execDes_out {s : State} (h : s.cfg.bitCap < s.bitLen.toNat) : execDes s = .next (raise .lengthRange s) := by
  simp [execDes, State.bitLenOut, h]

theorem execDes_in {s : State} (h : s.bitLen.toNat ≤ s.cfg.bitCap) :
    execDes s = .next (complete { s with
      mem := { s.mem with txt := s.mem.txt.writeFrom 0 s.decodedCharacters.1 }
      txtLen := BitVec.ofNat 32
        (if s.decodedCharacters.2.1 then s.decodedCharacters.1.length - 4 else s.decodedCharacters.1.length)
      status := s.status.decoded s.decodedCharacters.2.1 s.bitLen.toNat
      draws := s.decodedCharacters.2.2 }) := by
  simp [execDes, State.bitLenOut, Nat.not_lt.mpr h]

theorem execEmb_out {s : State} (h : s.cfg.bitCap < s.bitLen.toNat ∨ s.cfg.pixCap < s.pixLen.toNat) :
    execEmb s = .next (raise .lengthRange s) := by
  simp [execEmb, State.bitLenOut, State.pixLenOut, h]

theorem execEmb_over {s : State} (hb : s.bitLen.toNat ≤ s.cfg.bitCap) (hp : s.pixLen.toNat ≤ s.cfg.pixCap)
    (h : s.pixLen.toNat < s.bitLen.toNat) : execEmb s = .next (raise .capacityExceeded s) := by
  simp [execEmb, State.bitLenOut, State.pixLenOut, Nat.not_lt.mpr hb, Nat.not_lt.mpr hp, h]

theorem execEmb_in {s : State} (hb : s.bitLen.toNat ≤ s.cfg.bitCap) (hp : s.pixLen.toNat ≤ s.cfg.pixCap)
    (h : s.bitLen.toNat ≤ s.pixLen.toNat) :
    execEmb s = .next (complete { s with
      mem := { s.mem with pix := s.embeddedPixels.1 }
      draws := s.embeddedPixels.2 }) := by
  simp [execEmb, State.bitLenOut, State.pixLenOut, Nat.not_lt.mpr hb, Nat.not_lt.mpr hp, Nat.not_lt.mpr h]

theorem execExt_out {s : State} (h : s.cfg.pixCap < s.pixLen.toNat) : execExt s = .next (raise .lengthRange s) := by
  simp [execExt, State.pixLenOut, h]

theorem execExt_in {s : State} (h : s.pixLen.toNat ≤ s.cfg.pixCap) :
    execExt s = .next (complete { s with
      mem := { s.mem with bit := s.mem.bit.writeFrom 0 s.carriedBits.1 }
      bitLen := s.pixLen
      draws := s.carriedBits.2 }) := by
  simp [execExt, State.pixLenOut, Nat.not_lt.mpr h]

/-- What a command may change: STATUS, its output buffer, its output length, and the model's counter. -/
structure CommandFrame (i : Instr) (s t : State) : Prop where
  cfg : t.cfg = s.cfg
  pending : t.pending = s.pending
  msgLen : t.msgLen = s.msgLen
  pixLen : t.pixLen = s.pixLen
  held : t.held = s.held
  response : t.response = s.response
  host : t.host = s.host
  inputs : t.inputs = s.inputs
  msg : t.mem.msg = s.mem.msg
  txt : i ≠ .des → t.mem.txt = s.mem.txt ∧ t.txtLen = s.txtLen
  bit : i ≠ .ser → i ≠ .ext → t.mem.bit = s.mem.bit ∧ t.bitLen = s.bitLen
  pix : i ≠ .emb → t.mem.pix = s.mem.pix

/-- Everything `exec` can do, in one place: a raise, or the command's own completion. -/
theorem exec_cases (i : Instr) (s : State) :
    (∃ e, exec i s = .next (raise e s)) ∨
    (∃ t, exec i s = .next t ∧ CommandFrame i s t ∧
      (i ≠ .des → t.status = s.status.completed) ∧
      (i = .des → ∃ f, t.status = (s.status.decoded f s.bitLen.toNat).completed)) := by
  cases i with
  | ser =>
    rcases Nat.lt_or_ge s.cfg.msgCap s.msgLen.toNat with h | h
    · exact .inl ⟨_, execSer_out h⟩
    · exact .inr ⟨_, execSer_in h, by constructor <;> simp, by simp, by simp⟩
  | des =>
    rcases Nat.lt_or_ge s.cfg.bitCap s.bitLen.toNat with h | h
    · exact .inl ⟨_, execDes_out h⟩
    · exact .inr ⟨_, execDes_in h, by constructor <;> simp, by simp, fun _ => ⟨_, rfl⟩⟩
  | emb =>
    by_cases h : s.cfg.bitCap < s.bitLen.toNat ∨ s.cfg.pixCap < s.pixLen.toNat
    · exact .inl ⟨_, execEmb_out h⟩
    · have h : s.bitLen.toNat ≤ s.cfg.bitCap ∧ s.pixLen.toNat ≤ s.cfg.pixCap := by omega
      rcases Nat.lt_or_ge s.pixLen.toNat s.bitLen.toNat with h2 | h2
      · exact .inl ⟨_, execEmb_over h.1 h.2 h2⟩
      · exact .inr ⟨_, execEmb_in h.1 h.2 h2, by constructor <;> simp, by simp, by simp⟩
  | ext =>
    rcases Nat.lt_or_ge s.cfg.pixCap s.pixLen.toNat with h | h
    · exact .inl ⟨_, execExt_out h⟩
    · exact .inr ⟨_, execExt_in h, by constructor <;> simp, by simp, by simp⟩

/-- Everything the ENGINE's step can do: a raise, or the completion of the command that PENDING names. -/
theorem engineStep_cases (s : State) :
    (∃ e, engineStep s = .next (raise e s)) ∨
    (∃ i t, decodeWord s.pending = .ok i ∧ engineStep s = .next t ∧ exec i s = .next t ∧ CommandFrame i s t ∧
      (i ≠ .des → t.status = s.status.completed) ∧
      (i = .des → ∃ f, t.status = (s.status.decoded f s.bitLen.toNat).completed)) := by
  cases hd : decodeWord s.pending with
  | error e => exact .inl ⟨.illegalCommand, by simp [engineStep, fetchWord, execute, hd]⟩
  | ok i =>
    have he : engineStep s = exec i s := by simp [engineStep, fetchWord, execute, hd]
    rcases exec_cases i s with ⟨e, h⟩ | ⟨t, h, hf, h1, h2⟩
    · exact .inl ⟨e, by rw [he, h]⟩
    · exact .inr ⟨i, t, rfl, by rw [he, h], h, hf, h1, h2⟩

/-! ### Memory stays canonical and in bounds -/

/-- A legal configuration's capacities, as the bounds the commands rely on. -/
theorem exec_keeps_memory {i : Instr} {s t : State} (hc : s.cfg.Legal) (hw : s.mem.wf) (hb : s.mem.InBounds s.cfg)
    (h : exec i s = .next t) : t.mem.wf ∧ t.mem.InBounds t.cfg := by
  obtain ⟨w1, w2, w3, w4⟩ := hw
  obtain ⟨b1, b2, b3, b4⟩ := hb
  obtain ⟨k1, k2, k3, -⟩ := hc
  cases i with
  | ser =>
    rcases Nat.lt_or_ge s.cfg.msgCap s.msgLen.toNat with hl | hl
    · obtain rfl := Host.Outcome.next.inj ((execSer_out hl).symm.trans h)
      exact ⟨⟨w1, w2, w3, w4⟩, b1, b2, b3, b4⟩
    · obtain rfl := Host.Outcome.next.inj ((execSer_in hl).symm.trans h)
      obtain ⟨m, hm, hml, -⟩ := messageWithTerminator_spec s
      refine ⟨⟨w1, w2, Buffer.rising_writeFrom w3 _ _, w4⟩, b1, b2, Buffer.below_writeFrom b3 (.inr ?_), b4⟩
      rw [bitstreamOf_length, hm, List.length_append, hml, terminator_length]
      omega
  | des =>
    rcases Nat.lt_or_ge s.cfg.bitCap s.bitLen.toNat with hl | hl
    · obtain rfl := Host.Outcome.next.inj ((execDes_out hl).symm.trans h)
      exact ⟨⟨w1, w2, w3, w4⟩, b1, b2, b3, b4⟩
    · obtain rfl := Host.Outcome.next.inj ((execDes_in hl).symm.trans h)
      obtain ⟨cs, h1, h2, -⟩ := decodeGroups_spec s.mem.bit (s.bitLen.toNat / 8) 0 [] s.draws
      refine ⟨⟨w1, Buffer.rising_writeFrom w2 _ _, w3, w4⟩, b1, Buffer.below_writeFrom b2 (.inr ?_), b3, b4⟩
      rw [State.decodedCharacters, h1]
      simp only [List.nil_append]
      have := Nat.div_le_div_right (c := 8) hl
      omega
  | emb =>
    by_cases hl : s.cfg.bitCap < s.bitLen.toNat ∨ s.cfg.pixCap < s.pixLen.toNat
    · obtain rfl := Host.Outcome.next.inj ((execEmb_out hl).symm.trans h)
      exact ⟨⟨w1, w2, w3, w4⟩, b1, b2, b3, b4⟩
    · have hl : s.bitLen.toNat ≤ s.cfg.bitCap ∧ s.pixLen.toNat ≤ s.cfg.pixCap := by omega
      rcases Nat.lt_or_ge s.pixLen.toNat s.bitLen.toNat with h2 | h2
      · obtain rfl := Host.Outcome.next.inj ((execEmb_over hl.1 hl.2 h2).symm.trans h)
        exact ⟨⟨w1, w2, w3, w4⟩, b1, b2, b3, b4⟩
      · obtain rfl := Host.Outcome.next.inj ((execEmb_in hl.1 hl.2 h2).symm.trans h)
        refine ⟨⟨w1, w2, w3, embedBits_rising _ _ _ _ w4⟩, b1, b2, b3, embedBits_below _ _ b4 ?_⟩
        show 0 + s.bitLen.toNat ≤ s.cfg.pixCap
        omega
  | ext =>
    rcases Nat.lt_or_ge s.cfg.pixCap s.pixLen.toNat with hl | hl
    · obtain rfl := Host.Outcome.next.inj ((execExt_out hl).symm.trans h)
      exact ⟨⟨w1, w2, w3, w4⟩, b1, b2, b3, b4⟩
    · obtain rfl := Host.Outcome.next.inj ((execExt_in hl).symm.trans h)
      refine ⟨⟨w1, w2, Buffer.rising_writeFrom w3 _ _, w4⟩, b1, b2, Buffer.below_writeFrom b3 (.inr ?_), b4⟩
      rw [carriedBits_length]
      omega

/-- DES leaves `TXT_LEN <= TXT_CAP` (10_state.md R28). -/
theorem execDes_txtLen_le {s t : State} (hc : s.cfg.Legal) (ht : s.txtLen.toNat ≤ s.cfg.txtCap)
    (h : execDes s = .next t) : t.txtLen.toNat ≤ t.cfg.txtCap := by
  obtain ⟨k1, k2, k3, k4⟩ := hc
  rcases Nat.lt_or_ge s.cfg.bitCap s.bitLen.toNat with hl | hl
  · obtain rfl := Host.Outcome.next.inj ((execDes_out hl).symm.trans h)
    exact ht
  · obtain rfl := Host.Outcome.next.inj ((execDes_in hl).symm.trans h)
    obtain ⟨cs, h1, h2, -⟩ := decodeGroups_spec s.mem.bit (s.bitLen.toNat / 8) 0 [] s.draws
    have hlen : s.decodedCharacters.1.length ≤ s.cfg.txtCap := by
      rw [State.decodedCharacters, h1]
      have := Nat.div_le_div_right (c := 8) hl
      simp only [List.nil_append]
      omega
    simp only [complete_txtLen, complete_cfg, BitVec.toNat_ofNat]
    refine Nat.le_trans (Nat.mod_le _ _) ?_
    split <;> omega

end Sys2Proof.Machine
end

