-- ==== Sys2Proof/Laws/Hasm.lean ====
section
/-! SUPPORT. What the host program's lookups give: the next statement and the place of a label, in terms of the lines
themselves (30_encoding.md R87), and what a well-formed program is. -/

namespace Sys2Proof.Machine

theorem firstStmt_eq_some {p : List Line} {n k : Nat} {st : Stmt} (h : firstStmt p n = some (k, st)) :
    n ≤ k ∧ p[k - n]? = some (.stmt st) ∧ ∀ j, j < k - n → ∃ l, p[j]? = some (.label l) := by
  induction p generalizing n with
  | nil => cases h
  | cons x p ih =>
    cases x with
    | label l =>
      obtain ⟨h1, h2, h3⟩ := ih h
      have hk : k - n = (k - (n + 1)) + 1 := by omega
      refine ⟨by omega, by rw [hk]; exact h2, fun j hj => ?_⟩
      cases j with
      | zero => exact ⟨l, rfl⟩
      | succ j => exact h3 j (by omega)
    | stmt st' =>
      simp only [firstStmt, Option.some.injEq, Prod.mk.injEq] at h
      obtain ⟨rfl, rfl⟩ := h
      simp

theorem firstStmt_of_lines {p : List Line} {n k : Nat} {st : Stmt} (h : p[k]? = some (.stmt st))
    (hl : ∀ j, j < k → ∃ l, p[j]? = some (.label l)) : firstStmt p n = some (n + k, st) := by
  induction p generalizing n k with
  | nil => simp at h
  | cons x p ih =>
    cases k with
    | zero =>
      obtain rfl : x = .stmt st := by simpa using h
      rfl
    | succ k =>
      obtain ⟨l, hx⟩ := hl 0 (by omega)
      obtain rfl : x = .label l := by simpa using hx
      rw [firstStmt, ih (by simpa using h) fun j hj => by simpa using hl (j + 1) (by omega)]
      congr 2
      omega

/-- The lookup of the next statement finds exactly the next statement. -/
theorem firstStmt_iff (h : HostState) (k : Nat) (st : Stmt) :
    firstStmt (h.program.drop h.pc) h.pc = some (k, st) ↔ NextStmt h k st := by
  constructor
  · intro he
    obtain ⟨h1, h2, h3⟩ := firstStmt_eq_some he
    rw [List.getElem?_drop, Nat.add_sub_cancel' h1] at h2
    refine ⟨h1, h2, fun j hj hk => ?_⟩
    obtain ⟨l, hl⟩ := h3 (j - h.pc) (by omega)
    rw [List.getElem?_drop, Nat.add_sub_cancel' hj] at hl
    exact ⟨l, hl⟩
  · rintro ⟨h1, h2, h3⟩
    have he := firstStmt_of_lines (p := h.program.drop h.pc) (n := h.pc) (k := k - h.pc) (st := st)
      (by rw [List.getElem?_drop, Nat.add_sub_cancel' h1]; exact h2)
      fun j hj => by rw [List.getElem?_drop]; exact h3 _ (by omega) (by omega)
    rwa [Nat.add_sub_cancel' h1] at he

theorem labelIndex_eq_some {l : Label} {p : List Line} {n j : Nat} (h : p[j]? = some (.label l))
    (hu : ∀ i, p[i]? = some (.label l) → i = j) : labelIndex l p n = some (n + j) := by
  induction p generalizing n j with
  | nil => simp at h
  | cons x p ih =>
    have step : ∀ i, j = i + 1 → labelIndex l p (n + 1) = some (n + j) := by
      rintro i rfl
      rw [ih (n := n + 1) (j := i) (by simpa using h) fun m hm => by
        have := hu (m + 1) (by simpa using hm)
        omega]
      congr 1
      omega
    cases j with
    | zero =>
      obtain rfl : x = .label l := by simpa using h
      simp [labelIndex]
    | succ j =>
      cases x with
      | label l' =>
        have hne : l ≠ l' := by
          rintro rfl
          have := hu 0 rfl
          omega
        rw [labelIndex, if_neg hne]
        exact step j rfl
      | stmt st => exact step j rfl

/-- A label that stands on one line is found there. -/
theorem labelIndex_of_labelAt {p : List Line} {l : Label} {j : Nat} (h : LabelAt p l j) :
    labelIndex l p 0 = some j := by
  rw [labelIndex_eq_some h.1 h.2, Nat.zero_add]

theorem mem_labelsOf {p : List Line} {l : Label} : l ∈ labelsOf p ↔ ∃ j : Nat, p[j]? = some (Line.label l) := by
  rw [show (∃ j : Nat, p[j]? = some (Line.label l)) ↔ Line.label l ∈ p from List.mem_iff_getElem?.symm]
  induction p with
  | nil => simp [labelsOf]
  | cons x p ih => cases x <;> simp [labelsOf, ih]

theorem labelsOf_nodup {p : List Line} : (labelsOf p).Nodup ↔
    ∀ (i j : Nat) l, p[i]? = some (Line.label l) → p[j]? = some (Line.label l) → i = j := by
  induction p with
  | nil => simp [labelsOf]
  | cons x p ih =>
    have shift : (∀ (i j : Nat) l, p[i]? = some (Line.label l) → p[j]? = some (Line.label l) → i = j) ↔
        ∀ (i j : Nat) l, (x :: p)[i + 1]? = some (Line.label l) → (x :: p)[j + 1]? = some (Line.label l) → i + 1 = j + 1 := by
      simp
    cases x with
    | label l0 =>
      rw [labelsOf, List.nodup_cons, ih, mem_labelsOf, shift]
      constructor
      · rintro ⟨h1, h2⟩ i j l hi hj
        cases i with
        | zero =>
          obtain rfl : l0 = l := by simpa using hi
          cases j with
          | zero => rfl
          | succ j => exact absurd ⟨j, by simpa using hj⟩ h1
        | succ i =>
          cases j with
          | zero =>
            obtain rfl : l0 = l := by simpa using hj
            exact absurd ⟨i, by simpa using hi⟩ h1
          | succ j => exact h2 i j l hi hj
      · intro h
        refine ⟨fun ⟨j, hj⟩ => ?_, fun i j l hi hj => h _ _ l hi hj⟩
        have := h 0 (j + 1) l0 rfl (by simpa using hj)
        omega
    | stmt st =>
      rw [labelsOf, ih, shift]
      refine ⟨fun h i j l hi hj => ?_, fun h i j l hi hj => h _ _ l hi hj⟩
      cases i with
      | zero => simp at hi
      | succ i =>
        cases j with
        | zero => simp at hj
        | succ j => exact h i j l hi hj

/-- In a program that defines each label once, a label stands where it is found. -/
theorem labelAt_of_nodup {p : List Line} {l : Label} {j : Nat} (h : (labelsOf p).Nodup)
    (hj : p[j]? = some (.label l)) : LabelAt p l j := ⟨hj, fun i hi => labelsOf_nodup.mp h i j l hi hj⟩

end Sys2Proof.Machine
end

