-- ==== Sys2Proof/Laws/PerInstr.lean ====
section
/-! SUPPORT. What holds of each command as syntax: its encoding fills the two fields of the command word (30_encoding.md R80,
R82), and its words match its own row of the opcode table and no other (R83). -/

namespace Sys2Proof.Laws.EncodeFields

/-- RES is 0, OPC is the command's code, and exactly one row of the table matches the word, its own. -/
def Statement (i : Instr) : Prop :=
  (encode i).extractLsb' 4 28 = 0 ∧ (encode i).extractLsb' 0 4 = opc i ∧
    (opcodeTable.filter (OpRow.selects · (encode i))).map OpRow.instr = [i]

theorem ser : Statement .ser := ⟨by decide, by decide, by decide⟩

theorem des : Statement .des := ⟨by decide, by decide, by decide⟩

theorem emb : Statement .emb := ⟨by decide, by decide, by decide⟩

theorem ext : Statement .ext := ⟨by decide, by decide, by decide⟩

end Sys2Proof.Laws.EncodeFields
end

