-- ==== Sys2Proof/Laws/Step.lean ====
section
/-! SUPPORT. What one step can do, said once (`step_cases`): reset, the ENGINE's step, a transaction held, a transaction
answered, or a move of the host program alone. Every invariant of the machine is derived from it. -/

namespace Sys2Proof.Machine

theorem step_legal {s : State} (h : s.cfg.Legal) : step s = turn s := if_pos h

theorem step_illegal {s : State} (h : ¬ s.cfg.Legal) : step s = .refused .illegalConfiguration := if_neg h

theorem isHeld_of_idle {s : State} (h : s.status.busy = false) (tx : BusTx) : isHeld tx s = false := by
  simp [isHeld, h]

/-- What one step can do: the kind of move, with what the inputs `ins` and the host program `hst` become. -/
inductive Move (s t : State) (ins : List Input) (hst : HostState) : Prop where
  | reset (rest : List Input) (hi : s.inputs = .reset :: rest) (ht : t = takeReset { s with inputs := ins })
  | engine (hb : s.status.busy = true) (ht : engineStep { s with inputs := ins } = .next t)
  | holds (h : Held) (hsrc : Issues s h.tx) (hh : isHeld h.tx s = true) (hn : s.held = none)
      (ht : t = { s with inputs := ins, host := hst, held := some h })
  | answers (h : Held) (hd : Option Held) (hsrc : Issues s h.tx) (hh : isHeld h.tx s = false)
      (hhd : hd = s.held ∨ hd = none)
      (ht : t = answer h { s with inputs := ins, host := hst, held := hd })
  | program (ht : t = { s with inputs := ins, host := hst })

theorem blockMove_cases {s t : State} (ins : List Input) (h : blockMove { s with inputs := ins } = .next t) :
    Move s t ins s.host := by
  simp only [blockMove] at h
  split at h
  · next hb => exact .engine hb h
  · next hb =>
    split at h
    · next hd hs =>
      exact .answers hd none (.inl ⟨hd.origin, hs⟩) (isHeld_of_idle (by simpa using hb) _) (.inr rfl)
        (Host.Outcome.next.inj h).symm
    · exact .program (Host.Outcome.next.inj h).symm

theorem issue_cases (h : Held) (s : State) (ins : List Input) (hst : HostState) (hn : s.held = none)
    (hsrc : Issues s h.tx) : Move s (issue h { s with inputs := ins, host := hst }) ins hst := by
  by_cases hh : isHeld h.tx s = true
  · exact .holds h hsrc hh hn (issue_held hh)
  · have hh : isHeld h.tx s = false := by simpa using hh
    exact .answers h s.held hsrc hh (.inl rfl) (issue_not_held hh)

theorem branchTo_cases {l : Label} {s t : State} (h : branchTo l s = .next t) :
    ∃ k, t = { s with host := { s.host with pc := k } } := by
  simp only [branchTo] at h
  split at h
  · exact ⟨_, (Host.Outcome.next.inj h).symm⟩
  · cases h

theorem branchIf_cases {c : Bool} {l : Label} {s t : State} (h : branchIf c l s = .next t) :
    ∃ k, t = { s with host := { s.host with pc := k } } := by
  simp only [branchIf] at h
  split at h
  · exact branchTo_cases h
  · exact ⟨_, (Host.Outcome.next.inj h).symm⟩

theorem hostMove_cases {s t : State} (ins : List Input) (hn : s.held = none)
    (h : hostMove { s with inputs := ins } = .next t) :
    ∃ hst, hst.program = s.host.program ∧ Move s t ins hst := by
  simp only [hostMove] at h
  split at h
  · exact ⟨s.host, rfl, .program (Host.Outcome.next.inj h).symm⟩
  · next hstop =>
    split at h
    · next k st hk =>
      have hsrc : ∀ tx, stmtTx st = some tx → Issues s tx := fun tx htx =>
        .inr ⟨hn, .inr ⟨by simpa using hstop, k, st, (firstStmt_iff s.host k st).mp hk, htx⟩⟩
      cases st with
      | wr a v =>
        obtain rfl := Host.Outcome.next.inj h
        exact ⟨{ s.host with pc := k }, rfl, issue_cases _ s ins _ hn (hsrc _ rfl)⟩
      | rd a r =>
        obtain rfl := Host.Outcome.next.inj h
        exact ⟨{ s.host with pc := k }, rfl, issue_cases _ s ins _ hn (hsrc _ rfl)⟩
      | cmd i =>
        obtain rfl := Host.Outcome.next.inj h
        exact ⟨{ s.host with pc := k }, rfl, issue_cases _ s ins _ hn (hsrc _ (by cases i <;> rfl))⟩
      | bset r b l => obtain ⟨k', rfl⟩ := branchIf_cases h; exact ⟨{ s.host with pc := k' }, rfl, .program rfl⟩
      | bclr r b l => obtain ⟨k', rfl⟩ := branchIf_cases h; exact ⟨{ s.host with pc := k' }, rfl, .program rfl⟩
      | jmp l => obtain ⟨k', rfl⟩ := branchTo_cases h; exact ⟨{ s.host with pc := k' }, rfl, .program rfl⟩
      | halt =>
        obtain rfl := Host.Outcome.next.inj h
        exact ⟨{ s.host with pc := k, stopped := true }, rfl, .program rfl⟩
    · exact ⟨s.host, rfl, .program (Host.Outcome.next.inj h).symm⟩

/-- Everything a step that answers a next state can do. -/
theorem step_cases {s t : State} (h : step s = .next t) :
    s.cfg.Legal ∧ ∃ ins hst, hst.program = s.host.program ∧ Move s t ins hst := by
  by_cases hc : s.cfg.Legal
  · refine ⟨hc, ?_⟩
    rw [step_legal hc] at h
    simp only [turn] at h
    split at h
    · next hi =>
      split at h
      · exact ⟨s.inputs, s.host, rfl, blockMove_cases s.inputs h⟩
      · next hn =>
        obtain ⟨hst, h1, h2⟩ := hostMove_cases s.inputs (show s.held = none by simp at hn; exact hn.2) h
        exact ⟨_, hst, h1, h2⟩
    · next rest hi => exact ⟨rest, s.host, rfl, .reset rest hi (Host.Outcome.next.inj h).symm⟩
    · next rest hi => exact ⟨rest, s.host, rfl, blockMove_cases rest h⟩
    · next tx rest hi =>
      split at h
      · exact ⟨s.inputs, s.host, rfl, blockMove_cases s.inputs h⟩
      · next hn =>
        obtain rfl := Host.Outcome.next.inj h
        exact ⟨rest, s.host, rfl, issue_cases _ s rest s.host (by simpa using hn)
          (.inr ⟨by simpa using hn, .inl ⟨rest, hi⟩⟩)⟩
    · next rest hi =>
      split at h
      · exact ⟨s.inputs, s.host, rfl, blockMove_cases s.inputs h⟩
      · next hn =>
        obtain ⟨hst, h1, h2⟩ := hostMove_cases rest (by simpa using hn) h
        exact ⟨_, hst, h1, h2⟩
  · rw [step_illegal hc] at h
    cases h

end Sys2Proof.Machine
end

