-- ==== Sys2Proof/Tests/Slice0.lean ====
section
/-! SUPPORT. The model's own tests: decoding, against words written out from 30_encoding.md R80 to R84; ill-formed terms
that the checks refuse; a few vectors of 95_test_vectors.md, one step each, expected results from that file; and, for every
statement with hypotheses, a concrete input that meets them all (the names that begin with `witness`). -/

namespace Sys2Proof.Tests

open Sys2Proof Sys2Proof.Machine

/-! ### Building small states -/

/-- An idle or running state of configuration `c` with these buffers and lengths. -/
def mk (c : Config) (msg : List Byte) (msgLen : Word) (bit : List Bit) (bitLen : Word) (pix : List Byte)
    (pixLen : Word) (w : Word) (st : Status) : State :=
  { State.reset with
    cfg := c
    msgLen := msgLen
    bitLen := bitLen
    pixLen := pixLen
    pending := w
    status := st
    mem := { msg := Buffer.writeFrom [] 0 msg, txt := [], bit := Buffer.writeFrom [] 0 bit,
             pix := Buffer.writeFrom [] 0 pix } }

/-- SER pending on a message. -/
def serOf (msg : List Byte) : State :=
  mk .cfgT msg (BitVec.ofNat 32 msg.length) [] 0 [] 0 1 Status.started

/-- DES pending on these characters and then these bits. -/
def desOf (cs : List Byte) (more : List Bit) : State :=
  mk .cfgT [] 0 (bitstreamOf cs ++ more) (BitVec.ofNat 32 (8 * cs.length + more.length)) [] 0 2 Status.started

/-- EMB pending on these bits and carriers. -/
def embOf (bits : List Bit) (pix : List Byte) : State :=
  mk .cfgT [] 0 bits (BitVec.ofNat 32 bits.length) pix (BitVec.ofNat 32 pix.length) 3 Status.started

/-- EXT pending on these carriers. -/
def extOf (pix : List Byte) : State :=
  mk .cfgT [] 0 [] 0 pix (BitVec.ofNat 32 pix.length) 4 Status.started

/-- A command pending with these lengths and nothing in the buffers. -/
def lengths (msgLen bitLen pixLen w : Word) : State := mk .cfgT [] msgLen [] bitLen [] pixLen w Status.started

/-- `CFG_U` (95_test_vectors.md BUS-8). -/
def cfgU : Config := { msgCap := 5, txtCap := 9, bitCap := 72, pixCap := 72, blockBase := 0 }

/-- A fact about the next state, false of a fault or a refusal. -/
def nextIs (o : Host.Outcome State Fault Refusal) (p : State → Bool) : Bool :=
  match o with
  | .next t => p t
  | .fault _ => false
  | .refused _ => false

/-- The elements `0 .. n-1` of a buffer. -/
def elems {α : Type} (b : Buffer α) (n : Nat) : List (Option α) := (List.range n).map b.read?

/-! ### Decoding: words written out bit by bit from R80 and R82 (RES in bits 31:4, OPC in bits 3:0) -/

theorem test_decode_ser : decodeWord 0b00000000000000000000000000000001 = .ok .ser := by decide

theorem test_decode_des : decodeWord 0b00000000000000000000000000000010 = .ok .des := by decide

theorem test_decode_emb : decodeWord 0b00000000000000000000000000000011 = .ok .emb := by decide

theorem test_decode_ext : decodeWord 0b00000000000000000000000000000100 = .ok .ext := by decide

/-- The lowest byte comes first (20_memory.md R53): EXT from bytes, with a byte after it. -/
theorem test_decode_bytes : decode [0x04, 0x00, 0x00, 0x00, 0xAA] = .ok (.ext, [0xAA]) := by decide

/-- The same word in the other byte order has RES set. -/
theorem test_decode_byte_order : decode [0x00, 0x00, 0x00, 0x04] = .error .reservedBitsSet := by decide

theorem test_decode_truncated : decode [0x04, 0x00, 0x00] = .error .truncated := by decide

theorem test_decode_illegal_opcodes : ∀ n : Fin 16, (n = 0 ∨ 5 ≤ n) →
    decodeWord (BitVec.ofNat 32 n) = .error .illegalOpcode := by decide

theorem test_decode_one_reserved_bit : ∀ i : Fin 28, ∀ c : Instr, c = .ser ∨ c = .ext →
    decodeWord (encode c ||| (1#32 <<< (i.val + 4))) = .error .reservedBitsSet := by
  intro i c h
  rcases h with rfl | rfl <;> revert i <;> decide

theorem test_table_words : (decodeTableWord 32 1, decodeTableWord 32 2, decodeTableWord 32 3, decodeTableWord 32 4,
    decodeTableWord 32 5) = (some .ser, some .des, some .emb, some .ext, none) := by decide

/-! ### WellFormed refuses -/

theorem test_config_cfgT : Config.cfgT.Legal ∧ cfgU.Legal := by decide

/-- K1: `8 * (13 + 4) > 128`. -/
theorem test_config_k1 : ¬ { Config.cfgT with msgCap := 13 }.Legal := by decide

/-- K2. -/
theorem test_config_k2 : ¬ { Config.cfgT with pixCap := 129 }.Legal := by decide

/-- K3. -/
theorem test_config_k3 : ¬ { Config.cfgT with txtCap := 15 }.Legal := by decide

/-- K4, for each of the four sizes, K1 to K3 being met. -/
theorem test_config_k4 :
    ¬ Config.Legal ⟨2 ^ 28 + 1, 2 ^ 28, 8 * (2 ^ 28 + 5), 0, 0⟩ ∧ ¬ Config.Legal ⟨0, 2 ^ 28 + 1, 32, 0, 0⟩ ∧
    ¬ Config.Legal ⟨0, 2 ^ 28, 2 ^ 31 + 7, 0, 0⟩ ∧ ¬ Config.Legal ⟨0, 2 ^ 28, 2 ^ 31, 2 ^ 28 + 1, 0⟩ := by decide

theorem test_config_refused :
    step { State.reset with cfg := { Config.cfgT with txtCap := 15 } } = .refused .illegalConfiguration := rfl

theorem test_transaction_size : BusTx.wellFormed ⟨.read, 0x004, 1⟩ = false := by decide

theorem test_transaction_alignment : BusTx.wellFormed ⟨.read, 0x006, 4⟩ = false := by decide

theorem test_program_undefined_label : programWellFormed [.stmt (.jmp (.user 0)), .label (.user 1)] = false := by decide

theorem test_program_repeated_label :
    programWellFormed [.label (.user 0), .label (.user 0), .stmt .halt] = false := by decide

/-- A branch to a label the program does not define is refused by name (log 8). -/
theorem test_undefined_label_refused :
    step { State.reset with host := HostState.start [.stmt (.jmp (.user 0))] } = .refused .undefinedLabel := rfl

/-! ### Vectors of 95_test_vectors.md, section 2 -/

/-- SER-2. -/
theorem test_ser_2 : nextIs (step (serOf [0x41])) (fun t =>
    elems t.mem.bit 40 == (bitstreamOf [0x41, 0x23, 0x23, 0x23, 0x23]).map some && t.bitLen == 40 &&
      t.status.toWord == 0x2 &&
      elems t.mem.bit 16 == [false, true, false, false, false, false, false, true,
        false, false, true, false, false, false, true, true].map some) = true := by decide

/-- SER-5: one more than MSG_CAP. -/
theorem test_ser_5 : nextIs (step (lengths 13 7 0 1)) (fun t =>
    t.mem.bit == [] && t.bitLen == 7 && t.status.toWord == 0x26) = true := by decide

/-- DES-5: five `#` in a row stop at the fourth. -/
theorem test_des_5 : nextIs (step (desOf [0x41, 0x23, 0x23, 0x23, 0x23, 0x23] [])) (fun t =>
    elems t.mem.txt 6 == [some 0x41, some 0x23, some 0x23, some 0x23, some 0x23, none] && t.txtLen == 1 &&
      t.status.toWord == 0x102) = true := by decide

/-- DES-6: no terminator, and a partial group. -/
theorem test_des_6 : nextIs (step (desOf [0x55, 0x55] [false, true, false, true])) (fun t =>
    elems t.mem.txt 3 == [some 0x55, some 0x55, none] && t.txtLen == 2 && t.status.toWord == 0x202) = true := by decide

/-- EMB-7. -/
theorem test_emb_7 : nextIs (step (embOf [true, false, false, true] [0x00, 0xFF, 0xFE, 0x01])) (fun t =>
    elems t.mem.pix 4 == [some 0x01, some 0xFE, some 0xFE, some 0x01] && t.status.toWord == 0x2) = true := by decide

/-- EMB-6: LengthRange wins over CapacityExceeded. -/
theorem test_emb_6 : nextIs (step (lengths 0 200 10 3)) (fun t => t.mem.pix == [] && t.status.toWord == 0x26) = true := by
  decide

/-- EXT-6. -/
theorem test_ext_6 : nextIs (step (extOf [0x7F, 0x80, 0xFF, 0x00])) (fun t =>
    elems t.mem.bit 5 == [some true, some false, some true, some false, none] && t.bitLen == 4 &&
      t.status.toWord == 0x2) = true := by decide

/-- EXT-4. -/
theorem test_ext_4 : nextIs (step (lengths 0 9 129 4)) (fun t =>
    t.mem.bit == [] && t.bitLen == 9 && t.status.toWord == 0x26) = true := by decide

/-- CC-1 to CC-3: illegal words. -/
theorem test_cc_1_2_3 : ([0x00000000, 0x00000011, 0x00000005] : List Word).all (fun w =>
    nextIs (step (lengths 0 0 0 w)) (fun t => t.status.toWord == 0x16)) = true := by decide

/-- BUS-6, with `MSG[8..11]` written: the last word of the window, and the offset after it. -/
theorem test_bus_6 :
    (respond ⟨.read, 0x10000008, 4⟩ (serOf [0, 1, 2, 3, 4, 5, 6, 7, 8, 9, 10, 11])).1 = .okayRead 0x0B0A0908 ∧
    memRead State.reset 0x1000000C = none := by decide

/-- BUS-8, in `CFG_U`: only lane 0 exists at offset 4. -/
theorem test_bus_8 :
    (respond ⟨.read, 0x10000004, 4⟩ (respond ⟨.write 0xAABBCCDD, 0x10000004, 4⟩
      { State.reset with cfg := cfgU }).2).1 = .okayRead 0x000000DD ∧
    (respond ⟨.write 0xAABBCCDD, 0x10000004, 4⟩ { State.reset with cfg := cfgU }).2.mem.msg = [(4, 0xDD)] := by decide

/-- BUS-11: a word of BIT after SER-3, `"HELLO"`. -/
theorem test_bus_11 : nextIs (step (serOf [0x48, 0x45, 0x4C, 0x4C, 0x4F])) (fun t =>
    decide ((respond ⟨.read, 0x30000004, 4⟩ t).1 = .okayRead 0x2323234F)) = true := by decide

/-- BUS-9 and RST-2. -/
theorem test_rst_2 : [RegName.capMsg, .capTxt, .capBit, .capPix].map (readRegister State.reset) =
    [some 0x0C, some 0x10, some 0x80, some 0x80] := by decide

/-- R33: when BIT_CAP is not a multiple of 8, the missing bits of the last byte read 0 and are not written. -/
theorem test_last_bit_byte :
    (respond ⟨.write 0xFF, 0x30000004, 4⟩ { State.reset with cfg := ⟨0, 4, 35, 0, 0⟩ }).2.mem.bit =
      [(32, true), (33, true), (34, true)] ∧
    (respond ⟨.read, 0x30000004, 4⟩ (respond ⟨.write 0xFF, 0x30000004, 4⟩
      { State.reset with cfg := ⟨0, 4, 35, 0, 0⟩ }).2).1 = .okayRead 0xE0 := by decide

/-- A word placed by `withFetchWord` is what the next step runs. -/
theorem test_fetch_word : nextIs (step (State.reset.withFetchWord 32 1)) (fun t =>
    t.bitLen == 32 && t.status.toWord == 0x2 && t.inputs == []) = true := by decide

/-! ### Witnesses: an input that meets the hypotheses of each statement, clause by clause -/

/-- The word in STATUS of the next state. -/
def statusOf (o : Host.Outcome State Fault Refusal) : Option Word :=
  match o with
  | .next t => some t.status.toWord
  | .fault _ => none
  | .refused _ => none

/-- `State.Inv` of a state, from its parts. -/
theorem inv_of_parts {s : State} (h1 : s.cfg.Legal) (h2 : s.mem.wf) (h3 : s.mem.InBounds s.cfg) (h4 : s.status.Legal)
    (h5 : s.status.errcode.toNat ≤ 3) (h6 : s.txtLen.toNat ≤ s.cfg.txtCap) (h7 : s.held = none) : s.Inv :=
  ⟨h1, h2, h3, h4, h5, h6, fun h e => by rw [h7] at e; cases e⟩

theorem witness_StatusFieldsStandWhereTheMapSays : (10 : Nat) ≤ 10 ∧ Status.started.toWord.getLsbD 10 = false := by decide

/-- Each way of being illegal, at its boundaries. -/
theorem witness_IllegalWordsEndInIllegalCommand :
    decodeWord 0x00000000 = .error .illegalOpcode ∧ decodeWord 0x00000005 = .error .illegalOpcode ∧
    decodeWord 0x0000000F = .error .illegalOpcode ∧ decodeWord 0x00000010 = .error .reservedBitsSet ∧
    decodeWord 0x80000004 = .error .reservedBitsSet := by decide

/-- The three ways it is the block's turn, with a legal word and with an illegal one. -/
theorem witness_StepRunsThePendingCommand :
    (lengths 0 0 0 1).cfg.Legal ∧ (lengths 0 0 0 1).status.busy = true ∧ (lengths 0 0 0 1).inputs = [] ∧
    { lengths 0 0 0 1 with inputs := [.blockTurn] }.inputs = .blockTurn :: [] ∧
    ({ lengths 0 0 0 1 with held := some ⟨⟨.read, 0x008, 4⟩, .stream⟩, inputs := [.hostTurn] }.held.isSome = true ∧
      (Input.hostTurn ≠ .reset ∧ Input.hostTurn ≠ .blockTurn)) ∧
    decode (bytesOfWord (lengths 0 0 0 1).pending) = .ok (.ser, []) ∧ Instr.ser.wellFormed = true ∧
    decode (bytesOfWord (lengths 0 0 0 0).pending) = .error .illegalOpcode := by decide

theorem witness_CmdWriteLatchesTheWordAndSetsBusy :
    let s : State := { State.reset with inputs := [.issue ⟨.write 0xFFFFFFFF, 0x000, 4⟩] }
    s.cfg.Legal ∧ s.status.busy = false ∧ s.held = none ∧ s.inputs = .issue ⟨.write 0xFFFFFFFF, 0x000, 4⟩ :: [] := by
  decide

/-- Every command succeeds from some running state, DES in each of its three ways. -/
theorem witness_SuccessfulCommandLeavesStatusTwo :
    (Running (serOf [0x41]) ∧ nextIs (exec .ser (serOf [0x41])) (fun t => !t.status.err) = true) ∧
    (Running (embOf [true] [7]) ∧ nextIs (exec .emb (embOf [true] [7])) (fun t => !t.status.err) = true) ∧
    (Running (extOf [7]) ∧ nextIs (exec .ext (extOf [7])) (fun t => !t.status.err) = true) ∧
    statusOf (exec .des (desOf [0x41] [])) = some 0x2 ∧
    statusOf (exec .des (desOf [0x23, 0x23, 0x23, 0x23] [])) = some 0x102 ∧
    statusOf (exec .des (desOf [0x41] [true])) = some 0x202 := by decide

/-- A running state that raises, for each error. -/
theorem witness_RaisingCommandChangesStatusOnly :
    Running (lengths 0 0 0 0) ∧ statusOf (engineStep (lengths 0 0 0 0)) = some 0x16 ∧
    statusOf (engineStep (lengths 13 0 0 1)) = some 0x26 ∧ statusOf (engineStep (lengths 0 48 47 3)) = some 0x36 := by
  decide

/-- The largest legal message. -/
theorem witness_SerWritesMessageAndTerminator :
    (lengths 12 0 0 1).cfg.Legal ∧ Running (lengths 12 0 0 1) ∧
    (lengths 12 0 0 1).msgLen.toNat ≤ (lengths 12 0 0 1).cfg.msgCap := by decide

theorem witness_SerChangesNothingElse :
    nextIs (exec .ser (serOf [0x41])) (fun t => t.bitLen == 40) = true ∧ 8 * ((serOf [0x41]).msgLen.toNat + 4) ≤ 40 := by
  decide

theorem witness_SerRaisesLengthRange :
    Running (lengths 13 0 0 1) ∧ (lengths 13 0 0 1).cfg.msgCap < (lengths 13 0 0 1).msgLen.toNat := by decide

/-- The largest bitstream. -/
theorem witness_DesDecodesToTheFirstTerminator :
    (lengths 0 128 0 2).cfg.Legal ∧ Running (lengths 0 128 0 2) ∧
    (lengths 0 128 0 2).bitLen.toNat ≤ (lengths 0 128 0 2).cfg.bitCap ∧
    (desOf [0x41] []).mem.bit.read? (8 * 0 + 7) = some true := by decide

/-- With the terminator among the decoded characters. -/
theorem witness_DesWritesTheDecodedCharactersOnly :
    let s := desOf [0x41, 0x23, 0x23, 0x23, 0x23] [true]
    s.cfg.Legal ∧ s.bitLen.toNat ≤ s.cfg.bitCap ∧ nextIs (exec .des s) (fun t => t.txtLen == 1) = true ∧
    s.decodedCharacters.2.1 = true := by decide

theorem witness_DesRaisesLengthRange :
    Running (lengths 0 129 0 2) ∧ (lengths 0 129 0 2).cfg.bitCap < (lengths 0 129 0 2).bitLen.toNat := by decide

/-- Two bitstreams that differ only after the terminator. -/
theorem witness_DesDependsOnlyOnTheGroupsItDecodes :
    let s := desOf [0x23, 0x23, 0x23, 0x23, 0x41] []
    let bit' := (desOf [0x23, 0x23, 0x23, 0x23, 0x42] []).mem.bit
    s.decodedCharacters.1.length = 4 ∧ (∀ i : Fin 32, bit'.read? i = s.mem.bit.read? i) ∧
    bit'.read? 38 ≠ s.mem.bit.read? 38 ∧ nextIs (exec .des s) (fun t => t.txtLen == 0) = true := by decide

theorem witness_SerThenDesReturnsTheMessagePrefix :
    let s := serOf [0x41, 0x23]
    s.cfg.Legal ∧ s.msgLen.toNat ≤ s.cfg.msgCap ∧
    nextIs (runCommand (commandWord .ser) s) (fun t => decide (t.cfg = t.cfg ∧ t.bitLen = 48)) = true := by decide

/-- The bitstream fills the carriers exactly. -/
theorem witness_EmbReplacesBitZeroOfTheCarriers :
    let s := embOf [true, false] [0x10, 0x21]
    Running s ∧ s.bitLen.toNat ≤ s.cfg.bitCap ∧ s.pixLen.toNat ≤ s.cfg.pixCap ∧ s.bitLen.toNat ≤ s.pixLen.toNat ∧
    s.mem.pix.read? 1 = some 0x21 ∧ s.mem.bit.read? 1 = some false := by decide

theorem witness_EmbChangesNothingElse :
    nextIs (exec .emb (embOf [true] [0x10, 0x20])) (fun t => t.mem.pix.read? 1 == some 0x20) = true ∧
    (embOf [true] [0x10, 0x20]).bitLen.toNat ≤ 1 := by decide

/-- Each of the two lengths alone, just above its capacity. -/
theorem witness_EmbRaisesLengthRangeFirst :
    (Running (lengths 0 129 0 3) ∧ (lengths 0 129 0 3).cfg.bitCap < (lengths 0 129 0 3).bitLen.toNat) ∧
    (Running (lengths 0 0 129 3) ∧ (lengths 0 0 129 3).cfg.pixCap < (lengths 0 0 129 3).pixLen.toNat) := by decide

/-- EMB-4: one bit more than there are carriers. -/
theorem witness_EmbRaisesCapacityExceededBeforeMutation :
    let s := lengths 0 48 47 3
    Running s ∧ s.bitLen.toNat ≤ s.cfg.bitCap ∧ s.pixLen.toNat ≤ s.cfg.pixCap ∧ s.pixLen.toNat < s.bitLen.toNat := by
  decide

theorem witness_EmbTwiceIsEmbOnce :
    let s := embOf [true, false] [0x10, 0x21, 0x30]
    s.bitLen.toNat ≤ s.cfg.bitCap ∧ s.pixLen.toNat ≤ s.cfg.pixCap ∧ s.bitLen.toNat ≤ s.pixLen.toNat ∧
    nextIs (runCommand (commandWord .emb) s) (fun t => decide (SameCarrier t t)) = true ∧
    (s.mem.bit.read? 1).isSome = true ∧ ¬ 2 < s.bitLen.toNat := by decide

theorem witness_ExtCopiesBitZeroOfEveryByte :
    Running (lengths 0 0 128 4) ∧ (lengths 0 0 128 4).pixLen.toNat ≤ (lengths 0 0 128 4).cfg.pixCap ∧
    (extOf [7]).mem.pix.read? 0 = some 7 := by decide

theorem witness_ExtSetsBitLenAndChangesNothingElse :
    (extOf [7, 8]).pixLen.toNat ≤ (extOf [7, 8]).cfg.pixCap ∧
    nextIs (exec .ext (extOf [7, 8])) (fun t => t.bitLen == 2) = true ∧ (extOf [7, 8]).pixLen.toNat ≤ 2 := by decide

theorem witness_ExtRaisesLengthRange :
    Running (lengths 0 0 129 4) ∧ (lengths 0 0 129 4).cfg.pixCap < (lengths 0 0 129 4).pixLen.toNat := by decide

theorem witness_EmbThenExtReturnsTheBits :
    let s := embOf [true, false] [0x10, 0x21, 0x31]
    s.bitLen.toNat ≤ s.cfg.bitCap ∧ s.pixLen.toNat ≤ s.cfg.pixCap ∧ s.bitLen.toNat ≤ s.pixLen.toNat ∧
    nextIs (runCommand (commandWord .emb) s) (fun t => decide (t.pixLen = 3)) = true ∧
    s.mem.bit.read? 1 = some false ∧ s.mem.pix.read? 2 = some 0x31 := by decide

/-- A message with its carriers at exact capacity (W3). -/
def pathState : State := mk .cfgT [0x48] 1 [] 0 (List.replicate 40 0x80) 40 0 Status.reset

theorem witness_EncodeThenDecodeReturnsTheMessagePrefix :
    pathState.cfg.Legal ∧ pathState.msgLen.toNat ≤ pathState.cfg.msgCap ∧ pathState.pixLen.toNat ≤ pathState.cfg.pixCap ∧
    8 * (pathState.msgLen.toNat + 4) ≤ pathState.pixLen.toNat := by decide

/-- On both sides of the boundary. -/
theorem witness_EncodeSucceedsExactlyWhenItFits :
    pathState.cfg.Legal ∧ pathState.msgLen.toNat ≤ pathState.cfg.msgCap ∧ pathState.pixLen.toNat ≤ pathState.cfg.pixCap ∧
    8 * (pathState.msgLen.toNat + 4) ≤ pathState.pixLen.toNat ∧
    { pathState with pixLen := 39 }.pixLen.toNat < 8 * ({ pathState with pixLen := 39 }.msgLen.toNat + 4) := by decide

/-- Each way of being bad, at its boundary, and its good neighbours. -/
theorem witness_BadTransactionsGetErrorAndChangeNothing :
    (∀ tx ∈ ([⟨.read, 0x004, 2⟩, ⟨.read, 0x006, 4⟩, ⟨.read, 0x028, 4⟩, ⟨.read, 0x1000000C, 4⟩, ⟨.read, 0x20000010, 4⟩,
        ⟨.read, 0x30000010, 4⟩, ⟨.read, 0x40000080, 4⟩, ⟨.read, 0x50000000, 4⟩, ⟨.read, 0x000, 4⟩, ⟨.write 0, 0x004, 4⟩,
        ⟨.write 0, 0x014, 4⟩, ⟨.write 0, 0x018, 4⟩, ⟨.write 0, 0x01C, 4⟩, ⟨.write 0, 0x020, 4⟩, ⟨.write 0, 0x024, 4⟩,
        ⟨.write 0, 0x20000000, 4⟩] : List BusTx), BadTransaction .cfgT tx) ∧
    (∀ tx ∈ ([⟨.write 0, 0x000, 4⟩, ⟨.read, 0x024, 4⟩, ⟨.read, 0x10000008, 4⟩, ⟨.read, 0x2000000C, 4⟩,
        ⟨.write 0, 0x3000000C, 4⟩, ⟨.write 0, 0x4000007C, 4⟩] : List BusTx), ¬ BadTransaction .cfgT tx) := by decide

theorem witness_ReadTransactionsHaveNoSideEffect : (BusTx.mk .read 0x10000000 4).kind = .read := rfl

/-- The last word of each window: whole in `CFG_T`, partial in `CFG_U`; the last bits of a BIT that ends inside a byte. -/
theorem witness_WindowReadGivesTheBytesOfItsLanes :
    (cfgU.Legal ∧ (0x10000004 : Word).toNat = windowBase .msg + 4 ∧ 4 % 4 = 0 ∧ 4 < Window.msg.size cfgU ∧
      Window.msg.size cfgU ≤ 4 + 1) ∧
    (Config.cfgT.Legal ∧ (0x2000000C : Word).toNat = windowBase .txt + 12 ∧ 12 < Window.txt.size .cfgT) ∧
    ((0x4000007C : Word).toNat = windowBase .pix + 124 ∧ 124 < Window.pix.size .cfgT) ∧
    (Config.Legal ⟨0, 4, 35, 0, 0⟩ ∧ (0x30000004 : Word).toNat = windowBase .bit + 4 ∧
      4 < Window.bit.size ⟨0, 4, 35, 0, 0⟩ ∧ 8 * 4 + 2 < 35 ∧ 35 ≤ 8 * 4 + 3) := by decide

theorem witness_WindowWordReadsBackInItsLanes :
    cfgU.Legal ∧ (0x10000004 : Word).toNat = windowBase .msg + 4 ∧ Window.msg ≠ .txt ∧ 4 % 4 = 0 ∧
    4 < Window.msg.size cfgU := by decide

theorem witness_WindowWriteChangesItsLanesOnly :
    (0x10000004 : Word).toNat = windowBase .msg + 4 ∧ 4 < 2 ^ 28 ∧
    (respond ⟨.write 0xAABBCCDD, 0x10000004, 4⟩ { State.reset with cfg := cfgU }).1 = .okayWrite := by decide

/-- A transaction to hold, a malformed one, one held through the ENGINE's step, and one held while idle. -/
theorem witness_BusyStallHoldsTransactions :
    let w : BusTx := ⟨.write 5, 0x008, 4⟩
    let bad : BusTx := ⟨.read, 0x004, 1⟩
    let b := lengths 0 0 0 1
    (b.cfg.Legal ∧ b.status.busy = true ∧ b.held = none ∧ (w.size = 4 ∧ w.addr.toNat % 4 = 0) ∧
      ¬ (w.kind = .read ∧ w.addr = 0x004)) ∧
    ¬ (bad.size = 4 ∧ bad.addr.toNat % 4 = 0) ∧
    ({ b with held := some ⟨w, .stream⟩ }.status.busy = true ∧ { b with held := some ⟨w, .stream⟩ }.inputs = []) ∧
    (State.reset.cfg.Legal ∧ State.reset.status.busy = false ∧
      { State.reset with held := some ⟨w, .stream⟩ }.held = some ⟨w, .stream⟩ ∧ State.reset.inputs = []) := by decide

theorem witness_StatusReadWhileBusyReturnsOne :
    let s : State := { serOf [0x41] with inputs := [.issue ⟨.read, 0x004, 4⟩] }
    s.Inv ∧ s.status.busy = true ∧ s.held = none ∧ s.inputs = .issue ⟨.read, 0x004, 4⟩ :: [] :=
  ⟨inv_of_parts (by decide) (by decide) (by decide) (by decide) (by decide) (by decide) rfl, rfl, rfl, rfl⟩

theorem witness_WriteDuringCommandWaitsForItsEnd :
    let s : State := { serOf [0x41] with inputs := [.issue ⟨.write 5, 0x008, 4⟩] }
    s.cfg.Legal ∧ s.status.busy = true ∧ s.held = none ∧ (0x008 : Word).toNat % 4 = 0 ∧
    s.inputs = [.issue ⟨.write 5, 0x008, 4⟩] := by decide

/-- Reset while busy and while a transaction is held. -/
theorem witness_ResetInputReplacesTheWholeState :
    let s : State := { serOf [0x41] with held := some ⟨⟨.read, 0x008, 4⟩, .stream⟩, inputs := [.reset] }
    s.cfg.Legal ∧ s.inputs = .reset :: [] := by decide

theorem witness_EveryCommandSucceedsRightAfterReset : (serOf [0x41]).cfg.Legal := by decide

theorem witness_EveryStepKeepsTheInvariant :
    (serOf [0x41]).Inv ∧ nextIs (step (serOf [0x41])) (fun t => t.bitLen == 40) = true :=
  ⟨inv_of_parts (by decide) (by decide) (by decide) (by decide) (by decide) (by decide) rfl, by decide⟩

theorem witness_EveryStepAnswersANextState :
    let s : State := { State.reset with host := HostState.start (encodeLines 0 0 ++ decodeLines 1 1) }
    s.cfg.Legal ∧ programWellFormed s.host.program = true := by decide

theorem witness_CapacityRegistersNeverChange :
    nextIs (step { State.reset with inputs := [.reset] }) (fun t => decide (t.cfg = .cfgT)) = true := by decide

/-- A step for each clause: the ENGINE and an accepted CMD write change STATUS, DES writes TXT, a host write changes MSG_LEN, EMB
writes PIX, EXT writes BIT. -/
theorem witness_EachRegisterAndBufferHasItsWriters :
    nextIs (step (lengths 0 0 0 0)) (fun t => decide (t.status ≠ Status.started)) = true ∧
    nextIs (step { State.reset with inputs := [.issue ⟨.write 7, 0x000, 4⟩] })
      (fun t => decide (t.status ≠ State.reset.status ∧ t.pending = 7)) = true ∧
    nextIs (step (desOf [0x41] [])) (fun t => decide (t.mem.txt ≠ [])) = true ∧
    nextIs (step { State.reset with inputs := [.issue ⟨.write 5, 0x008, 4⟩] })
      (fun t => decide (t.msgLen ≠ State.reset.msgLen)) = true ∧
    nextIs (step (embOf [true] [0])) (fun t => decide (t.mem.pix ≠ (embOf [true] [0]).mem.pix)) = true ∧
    nextIs (step (extOf [7])) (fun t => decide (t.mem.bit ≠ [])) = true := by decide

theorem witness_BusyCommandEndsWithinTheInputs :
    let s : State := { serOf [0x41] with inputs := [.issue ⟨.read, 0x004, 4⟩, .hostTurn] }
    s.cfg.Legal ∧ s.status.busy = true ∧ programWellFormed s.host.program = true ∧ ∀ x ∈ s.inputs, x ≠ .reset := by decide

/-- A machine whose host is at the start of this program, before its first statement, which is on line 1. -/
def hostAt (st : Stmt) : State :=
  { State.reset with host := HostState.start [.label (.user 0), .stmt st, .label (.user 1)] }

/-- The same while a command runs, the host program's turn being next. -/
def busyHostAt (st : Stmt) : State := { hostAt st with status := Status.started, inputs := [.hostTurn] }

theorem hostAt_turn (st : Stmt) : HostTurn (hostAt st) [] := ⟨rfl, rfl, .inl ⟨rfl, rfl, rfl⟩⟩

theorem busyHostAt_turn (st : Stmt) : HostTurn (busyHostAt st) [] := ⟨rfl, rfl, .inr rfl⟩

theorem hostAt_next (st : Stmt) : NextStmt (hostAt st).host 1 st := (firstStmt_iff _ 1 st).mp rfl

theorem hostAt_labels (st : Stmt) :
    LabelAt (hostAt st).host.program (.user 0) 0 ∧ LabelAt (hostAt st).host.program (.user 1) 2 :=
  have h : (labelsOf (hostAt st).host.program).Nodup := by
    show [Label.user 0, Label.user 1].Nodup
    decide
  ⟨labelAt_of_nodup h rfl, labelAt_of_nodup h rfl⟩

/-- The hypotheses of each clause: an answered RD (idle, and of STATUS while busy), WR and command, an ERROR of each kind (idle,
and misaligned while busy), and a transaction that waits. -/
theorem witness_HostBusStatementsAreBusTransactions :
    (∀ st, HostTurn (hostAt st) [] ∧ HostTurn (busyHostAt st) [] ∧ NextStmt (hostAt st).host 1 st ∧
      NextStmt (busyHostAt st).host 1 st) ∧
    ((hostAt .halt).cfg.Legal ∧ (hostAt .halt).status.busy = false ∧ (busyHostAt .halt).status.busy = true) ∧
    (respond ⟨.read, 0x018, 4⟩ (hostAt (.rd 0x018 3))).1 = .okayRead 12 ∧
    (respond ⟨.read, 0x004, 4⟩ (busyHostAt (.rd 0x004 3))).1 = .okayRead 1 ∧
    (respond ⟨.write 5, 0x008, 4⟩ (hostAt (.wr 0x008 5))).1 = .okayWrite ∧
    (∀ tx ∈ ([⟨.read, 0x000, 4⟩, ⟨.write 0, 0x004, 4⟩, ⟨.read, 0x006, 4⟩, ⟨.write 0, 0x00A, 4⟩] : List BusTx),
      BadTransaction .cfgT tx) ∧
    stmtTx (.rd 0x008 3) = some ⟨.read, 0x008, 4⟩ ∧ (0x008 : Word).toNat % 4 = 0 ∧ (0x008 : Word) ≠ 0x004 :=
  ⟨fun st => ⟨hostAt_turn st, busyHostAt_turn st, hostAt_next st, hostAt_next st⟩, by decide⟩

/-- The hypotheses of each clause: idle and busy, each statement next, its label on one line. -/
theorem witness_HostControlStatementsStayInTheHost (st : Stmt) :
    (hostAt st).cfg.Legal ∧ (busyHostAt st).cfg.Legal ∧ HostTurn (hostAt st) [] ∧ HostTurn (busyHostAt st) [] ∧
    NextStmt (hostAt st).host 1 st ∧ NextStmt (busyHostAt st).host 1 st ∧
    LabelAt (hostAt st).host.program (.user 0) 0 ∧ LabelAt (busyHostAt st).host.program (.user 1) 2 :=
  ⟨by show Config.cfgT.Legal; decide, by show Config.cfgT.Legal; decide, hostAt_turn st, busyHostAt_turn st, hostAt_next st,
    hostAt_next st, (hostAt_labels st).1, (hostAt_labels st).2⟩

theorem witness_EncodeAndDecodeExpandToWellFormedPrograms : (0 : Nat) ≠ 1 ∧
    programWellFormed (encodeLines 0 0 ++ decodeLines 1 1 ++ [.stmt .halt]) = true := by decide

/-- A program that is well formed, one with a label on two lines, and one with a branch to no line. -/
theorem witness_WellFormedProgramsDefineEachLabelOnce :
    programWellFormed [.label (.user 0), .stmt (.jmp (.user 0))] = true ∧
    programWellFormed [.label (.user 0), .stmt (.jmp (.user 0)), .label (.user 0)] = false ∧
    programWellFormed [.label (.user 0), .stmt (.bset 0 0 (.user 1))] = false := by decide

end Sys2Proof.Tests
end

section
/-! The weights of a character's bits (00_scope.md R12), and the statement of the family 00_scope.md. -/

namespace Sys2Proof.Machine

/-- R12's weights: eight bits weigh at most 255 together, so reducing their sum to a byte loses nothing. -/
theorem byte8_toNat (g0 g1 g2 g3 g4 g5 g6 g7 : Bit) :
    (byte8 [g0, g1, g2, g3, g4, g5, g6, g7]).toNat =
      g0.toNat * 128 + g1.toNat * 64 + g2.toNat * 32 + g3.toNat * 16 + g4.toNat * 8 + g5.toNat * 4 + g6.toNat * 2 +
        g7.toNat := by
  simp only [byte8, List.foldl_cons, List.foldl_nil, BitVec.toNat_ofNat]
  rw [Nat.mod_eq_of_lt (by linarith [g0.toNat_le, g1.toNat_le, g2.toNat_le, g3.toNat_le, g4.toNat_le, g5.toNat_le,
    g6.toNat_le, g7.toNat_le])]
  ring

/-- Settles O1: `bits8` lists the bits by definition, and `byte8` weighs them (`byte8_toNat`) and inverts `bits8`
(`byte8_bits8_eq`). -/
theorem characterBitsAreMostSignificantFirst : Obligations.CharacterBitsAreMostSignificantFirst :=
  ⟨fun _ => rfl, byte8_toNat, byte8_bits8_eq⟩

end Sys2Proof.Machine
end

section
/-! Who writes what: every step sorted by what it does to the block's registers and buffers (`step_effect`), and the
statements of the family 10_state.md derived from it. -/

namespace Sys2Proof.Machine

/-! ### The word view of STATUS -/

/-- ERRCODE stands in bits 7:4 of the word read at 0x004 (R24). -/
theorem Status.toWord_errcode (st : Status) : st.toWord.extractLsb' 4 4 = st.errcode := by
  refine BitVec.eq_of_getLsbD_eq fun i hi => ?_
  rw [BitVec.getLsbD_extractLsb', Status.toWord_getLsbD]
  interval_cases i <;> simp

/-- Bits 31:10 of the word read at 0x004 read 0 (R24). -/
theorem Status.toWord_reserved (st : Status) {i : Nat} (h : 10 ≤ i) : st.toWord.getLsbD i = false := by
  rw [Status.toWord_getLsbD]
  simp [show i ≠ 0 by omega, show i ≠ 1 by omega, show i ≠ 2 by omega, show ¬ i < 8 by omega, show i ≠ 8 by omega,
    show i ≠ 9 by omega]

/-- Settles O2: `Status.toWord_getLsbD` read at each single bit, and one lemma each for ERRCODE and the reserved bits. -/
theorem statusFieldsStandWhereTheMapSays : Obligations.StatusFieldsStandWhereTheMapSays := fun st =>
  ⟨st.toWord_getLsbD 0, st.toWord_getLsbD 1, st.toWord_getLsbD 2, st.toWord_getLsbD 3, st.toWord_errcode,
    st.toWord_getLsbD 8, st.toWord_getLsbD 9, fun _ => st.toWord_reserved⟩

/-! ### What a host write leaves -/

/-- A host write leaves the configuration, the port and DES's outputs alone (R61). -/
structure WriteFrame (s t : State) : Prop where
  cfg : t.cfg = s.cfg
  held : t.held = s.held
  txt : t.mem.txt = s.mem.txt
  txtLen : t.txtLen = s.txtLen

theorem memWrite_frame {s t : State} {a v : Word} (h : memWrite s a v = some t) : WriteFrame s t := by
  rcases memWrite_cases h with rfl | rfl | rfl | rfl | ⟨w, off, vs, -, -, rfl⟩
  case inr.inr.inr.inr => exact ⟨rfl, rfl, writeLanes_txt .., rfl⟩
  all_goals exact ⟨rfl, rfl, rfl, rfl⟩

/-- A host write leaves STATUS alone, or it is the CMD write (R61, R102). -/
theorem memWrite_status {s t : State} {a v : Word} (h : memWrite s a v = some t) :
    t.status = s.status ∨ (a = RegName.cmd.offset ∧ t = startCommand v s) := by
  simp only [memWrite] at h
  split at h
  · obtain ⟨r, hr, h⟩ := Option.bind_eq_some_iff.mp h
    cases r <;> simp only [writeRegister, Option.some.injEq, reduceCtorEq] at h
    case cmd => exact .inr ⟨(registerAt_eq_some hr).symm, h.symm⟩
    all_goals exact .inl (h ▸ rfl)
  · obtain ⟨w, -, h⟩ := Option.bind_eq_some_iff.mp h
    obtain ⟨-, -, rfl⟩ := windowWrite_eq h
    exact .inl rfl

/-- Only a well-formed write is answered with an accepted write (R51, R52, R61). -/
theorem wellFormed_of_respond_okayWrite {tx : BusTx} {s t : State} (h : respond tx s = (.okayWrite, t)) :
    tx.wellFormed = true := by
  by_contra hw
  rw [respond_malformed s (by simpa using hw)] at h
  cases h

/-- A write that is well formed is held while the ENGINE is busy (R62). -/
theorem idle_of_write_not_held {a v : Word} {n : Nat} {s : State} (hw : BusTx.wellFormed ⟨.write v, a, n⟩ = true)
    (hh : isHeld ⟨.write v, a, n⟩ s = false) : s.status.busy = false := by
  simpa [isHeld, hw] using hh

/-! ### What a step does to the block -/

/-- The step leaves the block's registers, buffers and configuration as they are, and the port holds nothing new but what it
may hold (R62). -/
structure KeepsBlock (s t : State) : Prop where
  cfg : t.cfg = s.cfg
  status : t.status = s.status
  pending : t.pending = s.pending
  msgLen : t.msgLen = s.msgLen
  bitLen : t.bitLen = s.bitLen
  pixLen : t.pixLen = s.pixLen
  txtLen : t.txtLen = s.txtLen
  mem : t.mem = s.mem
  held : ∀ h, t.held = some h → s.held = some h ∨ h.Legal

/-- What a step does to the block: a reset, the ENGINE's step, nothing, or an accepted host write, which is there only while
idle (R62). In the last case `p` is the state the write finds: its input used up, the transaction taken off the port. -/
inductive StepEffect (s t : State) : Prop where
  | reset (rest ins : List Input) (hi : s.inputs = .reset :: rest) (ht : t = takeReset { s with inputs := ins })
  | engine (ins : List Input) (hb : s.status.busy = true) (ht : engineStep { s with inputs := ins } = .next t)
  | quiet (hk : KeepsBlock s t)
  | write (a v : Word) (o : Origin) (p u : State) (hb : s.status.busy = false) (hsrc : Issues s ⟨.write v, a, 4⟩)
      (hk : KeepsBlock s p) (hw : memWrite p a v = some u) (ht : t = deliver o .okayWrite u)

/-- The inputs and the host program are no part of the block (R37). -/
theorem keepsBlock_outside (s : State) (ins : List Input) (hst : HostState) :
    KeepsBlock s { s with inputs := ins, host := hst } :=
  ⟨rfl, rfl, rfl, rfl, rfl, rfl, rfl, rfl, fun _ => .inl⟩

theorem KeepsBlock.deliver {s p : State} (hk : KeepsBlock s p) (o : Origin) (r : Response) (d : Nat) :
    KeepsBlock s (deliver o r { p with draws := d }) := by
  cases o <;> exact ⟨hk.cfg, hk.status, hk.pending, hk.msgLen, hk.bitLen, hk.pixLen, hk.txtLen, hk.mem, hk.held⟩

/-- An answered transaction keeps the block, or is an accepted write while idle. -/
theorem answer_effect {s p : State} {h : Held} (hsrc : Issues s h.tx) (hh : isHeld h.tx s = false)
    (hk : KeepsBlock s p) : StepEffect s (answer h p) := by
  rw [answer_eq]
  rcases respond_cases h.tx p with ⟨r, d, hr, -⟩ | ⟨v, u, hkind, hw, hr⟩
  · rw [hr]
    exact .quiet (hk.deliver h.origin r d)
  · have hwf := wellFormed_of_respond_okayWrite hr
    rw [hr]
    obtain ⟨⟨kind, a, n⟩, o⟩ := h
    obtain rfl : kind = .write v := hkind
    obtain rfl : n = 4 := ((wellFormed_iff _).mp hwf).1
    exact .write a v o p u (idle_of_write_not_held hwf hh) hsrc hk hw rfl

/-- Every step sorted by what it does to the block. -/
theorem step_effect {s t : State} (h : step s = .next t) : StepEffect s t := by
  obtain ⟨-, ins, hst, -, hm⟩ := step_cases h
  cases hm with
  | reset rest hi ht => exact .reset rest ins hi ht
  | engine hb ht => exact .engine ins hb ht
  | holds h _ hh _ ht =>
    subst ht
    exact .quiet ⟨rfl, rfl, rfl, rfl, rfl, rfl, rfl, rfl, fun _ he => .inr (Option.some.inj he ▸ isHeld_legal hh)⟩
  | answers h hd hsrc hh hhd ht =>
    subst ht
    refine answer_effect hsrc hh ⟨rfl, rfl, rfl, rfl, rfl, rfl, rfl, rfl, fun h' he => .inl ?_⟩
    rcases hhd with rfl | rfl
    · exact he
    · cases he
  | program ht => exact .quiet (ht ▸ keepsBlock_outside s ins hst)

/-- What the ENGINE's step answers: a raise, or the completion of the command that PENDING names. -/
theorem engineStep_next {s t : State} (h : engineStep s = .next t) :
    (∃ e, t = raise e s) ∨
    (∃ i, decodeWord s.pending = .ok i ∧ exec i s = .next t ∧ CommandFrame i s t ∧
      ∃ found, t.status = s.status.completed ∨ t.status = (s.status.decoded found s.bitLen.toNat).completed) := by
  rcases engineStep_cases s with ⟨e, he⟩ | ⟨i, u, hd, he, hx, hf, hne, hdes⟩
  · exact .inl ⟨e, Host.Outcome.next.inj (h.symm.trans he)⟩
  · obtain rfl := Host.Outcome.next.inj (h.symm.trans he)
    refine .inr ⟨i, hd, hx, hf, ?_⟩
    by_cases hi : i = .des
    · exact (hdes hi).imp fun _ => .inr
    · exact ⟨false, .inl (hne hi)⟩

/-! ### STATUS stays legal -/

theorem Status.started_raised_legal (e : CommandError) : (Status.started.raised e).Legal := by cases e <;> decide

theorem Status.started_completed_legal : Status.started.completed.Legal := by decide

/-- DES's flags exclude each other (R130, R131), whatever the bitstream's length. -/
theorem Status.started_decoded_legal (found : Bool) (n : Nat) : (Status.started.decoded found n).completed.Legal := by
  refine ⟨nofun, by simp, by simp, ?_⟩
  cases found <;> simp

theorem CommandError.code_le (e : CommandError) : e.code.toNat ≤ 3 := by cases e <;> decide

/-- Every outcome of a command that began at `STATUS = 0x1` is a legal STATUS with a known code (R24, R180). -/
theorem engineStep_status {s t : State} (hs : s.status = Status.started) (h : engineStep s = .next t) :
    t.status.Legal ∧ t.status.errcode.toNat ≤ 3 := by
  rcases engineStep_next h with ⟨e, rfl⟩ | ⟨i, -, -, -, found, ht | ht⟩
  · rw [raise_status, hs]
    exact ⟨Status.started_raised_legal e, e.code_le⟩
  · rw [ht, hs]
    exact ⟨Status.started_completed_legal, by decide⟩
  · rw [ht, hs]
    exact ⟨Status.started_decoded_legal found _, by simp⟩

/-! ### The invariant, kind by kind of step -/

theorem inv_takeReset {s : State} (h : s.Inv) (ins : List Input) : (takeReset { s with inputs := ins }).Inv where
  cfg_legal := h.cfg_legal
  mem_wf := by simp [Memory.reset]
  mem_bounds := by simp [Memory.reset, Memory.InBounds]
  status_legal := by rw [takeReset_status]; decide
  errcode_known := by simp
  txtLen_le := by simp
  held_legal := by simp

/-- DES alone writes TXT_LEN, and within TXT_CAP (R28). -/
theorem exec_txtLen_le {i : Instr} {s t : State} (hc : s.cfg.Legal) (ht : s.txtLen.toNat ≤ s.cfg.txtCap)
    (h : exec i s = .next t) (hf : CommandFrame i s t) : t.txtLen.toNat ≤ t.cfg.txtCap := by
  by_cases hi : i = .des
  · subst hi
    exact execDes_txtLen_le hc ht h
  · rw [(hf.txt hi).2, hf.cfg]
    exact ht

theorem inv_engineStep {s t : State} (h : s.Inv) (hb : s.status.busy = true) (ht : engineStep s = .next t) : t.Inv := by
  obtain ⟨hst, herr⟩ := engineStep_status (h.status_legal.1 hb) ht
  rcases engineStep_next ht with ⟨e, rfl⟩ | ⟨i, -, hx, hf, -⟩
  · exact ⟨h.cfg_legal, h.mem_wf, h.mem_bounds, hst, herr, h.txtLen_le, h.held_legal⟩
  · obtain ⟨hwf, hbd⟩ := exec_keeps_memory h.cfg_legal h.mem_wf h.mem_bounds hx
    exact ⟨hf.cfg ▸ h.cfg_legal, hwf, hbd, hst, herr, exec_txtLen_le h.cfg_legal h.txtLen_le hx hf,
      hf.held ▸ h.held_legal⟩

theorem inv_of_keepsBlock {s t : State} (h : s.Inv) (hk : KeepsBlock s t) : t.Inv where
  cfg_legal := hk.cfg ▸ h.cfg_legal
  mem_wf := hk.mem ▸ h.mem_wf
  mem_bounds := by rw [hk.mem, hk.cfg]; exact h.mem_bounds
  status_legal := hk.status ▸ h.status_legal
  errcode_known := hk.status ▸ h.errcode_known
  txtLen_le := by rw [hk.txtLen, hk.cfg]; exact h.txtLen_le
  held_legal := fun x hx => (hk.held x hx).elim (h.held_legal x) id

theorem inv_memWrite {s t : State} {a v : Word} (h : s.Inv) (hw : memWrite s a v = some t) : t.Inv := by
  obtain ⟨hwf, hbd⟩ := memWrite_keeps_memory h.mem_wf h.mem_bounds hw
  have hf := memWrite_frame hw
  obtain ⟨hst, herr⟩ : t.status.Legal ∧ t.status.errcode.toNat ≤ 3 := by
    rcases memWrite_status hw with hs | ⟨-, rfl⟩
    · rw [hs]
      exact ⟨h.status_legal, h.errcode_known⟩
    · rw [startCommand_status]
      decide
  exact ⟨hf.cfg ▸ h.cfg_legal, hwf, hbd, hst, herr, by rw [hf.txtLen, hf.cfg]; exact h.txtLen_le,
    hf.held ▸ h.held_legal⟩

theorem inv_deliver {s : State} (h : s.Inv) (o : Origin) (r : Response) : (deliver o r s).Inv :=
  inv_of_keepsBlock h ((keepsBlock_outside s s.inputs s.host).deliver o r s.draws)

/-- Settles O44: each kind of step (`step_effect`) keeps the invariant. -/
theorem everyStepKeepsTheInvariant : Obligations.EveryStepKeepsTheInvariant := by
  intro s t h hstep
  cases step_effect hstep with
  | reset rest ins _ ht => exact ht ▸ inv_takeReset h ins
  | engine ins hb ht => exact inv_engineStep (inv_of_keepsBlock h (keepsBlock_outside s ins s.host)) hb ht
  | quiet hk => exact inv_of_keepsBlock h hk
  | write a v o p u _ _ hk hw ht => exact ht ▸ inv_deliver (inv_memWrite (inv_of_keepsBlock h hk) hw) o _

/-! ### The capacities -/

theorem engineStep_cfg {s t : State} (h : engineStep s = .next t) : t.cfg = s.cfg := by
  rcases engineStep_next h with ⟨e, rfl⟩ | ⟨i, -, -, hf, -⟩
  · rfl
  · exact hf.cfg

/-- No step changes the configuration (R29). -/
theorem step_cfg {s t : State} (h : step s = .next t) : t.cfg = s.cfg := by
  cases step_effect h with
  | reset rest ins _ ht => rw [ht, takeReset_cfg]
  | engine ins _ ht => exact (engineStep_cfg ht).trans rfl
  | quiet hk => exact hk.cfg
  | write a v o p u _ _ hk hw ht => rw [ht, deliver_cfg, (memWrite_frame hw).cfg, hk.cfg]

/-- Settles O47: the CAP registers are views of the configuration, which no step changes (`step_cfg`). -/
theorem capacityRegistersNeverChange : Obligations.CapacityRegistersNeverChange := by
  intro s t h
  have hc := step_cfg h
  refine ⟨hc, ?_, ?_, ?_, ?_, fun v => ⟨rfl, rfl, rfl, rfl⟩⟩ <;> rw [← hc] <;> rfl

/-! ### Who writes what -/

/-- The writers of the registers and buffers but STATUS (R25 to R28, R30 to R34), for a step that is no reset. -/
structure Writers (s t : State) : Prop where
  des : t.mem.txt ≠ s.mem.txt ∨ t.txtLen ≠ s.txtLen → s.status.busy = true ∧ decodeWord s.pending = .ok .des
  host : t.mem.msg ≠ s.mem.msg ∨ t.msgLen ≠ s.msgLen ∨ t.pixLen ≠ s.pixLen ∨ t.pending ≠ s.pending →
    s.status.busy = false
  emb : t.mem.pix ≠ s.mem.pix → s.status.busy = false ∨ decodeWord s.pending = .ok .emb
  serExt : t.mem.bit ≠ s.mem.bit ∨ t.bitLen ≠ s.bitLen →
    s.status.busy = false ∨ decodeWord s.pending = .ok .ser ∨ decodeWord s.pending = .ok .ext

theorem KeepsBlock.writers {s t : State} (hk : KeepsBlock s t) : Writers s t := by
  constructor <;> simp [hk.mem, hk.txtLen, hk.msgLen, hk.pixLen, hk.pending, hk.bitLen]

theorem CommandFrame.writers {i : Instr} {s t : State} (hf : CommandFrame i s t) (hb : s.status.busy = true)
    (hd : decodeWord s.pending = .ok i) : Writers s t := by
  have runs : ∀ j, (i ≠ j → False) → decodeWord s.pending = .ok j := fun j hj => not_not.mp hj ▸ hd
  constructor
  case des => exact fun h => ⟨hb, runs .des fun hi => h.elim (· (hf.txt hi).1) (· (hf.txt hi).2)⟩
  case host => simp [hf.msg, hf.msgLen, hf.pixLen, hf.pending]
  case emb => exact fun h => .inr (runs .emb fun hi => h (hf.pix hi))
  case serExt =>
    intro h
    by_cases hi : i = .ser
    · exact .inr (.inl (hi ▸ hd))
    · exact .inr (.inr (runs .ext fun hj => h.elim (· (hf.bit hi hj).1) (· (hf.bit hi hj).2)))

theorem engineStep_writers {s t : State} (hb : s.status.busy = true) (h : engineStep s = .next t) : Writers s t := by
  rcases engineStep_next h with ⟨e, rfl⟩ | ⟨i, hd, -, hf, -⟩
  · constructor <;> simp
  · exact hf.writers hb hd

theorem step_writers {s t : State} (h : step s = .next t) (hr : ∀ rest, s.inputs ≠ .reset :: rest) : Writers s t := by
  cases step_effect h with
  | reset rest ins hi _ => exact absurd hi (hr rest)
  | engine ins hb ht =>
    obtain ⟨hdes, hhost, hemb, hserExt⟩ := engineStep_writers (s := { s with inputs := ins }) hb ht
    exact ⟨hdes, hhost, hemb, hserExt⟩
  | quiet hk => exact hk.writers
  | write a v o p u hb _ hk hw ht =>
    have hf := memWrite_frame hw
    refine ⟨fun hne => absurd hne ?_, fun _ => hb, fun _ => .inl hb, fun _ => .inl hb⟩
    simp [ht, hf.txt, hf.txtLen, hk.mem, hk.txtLen]

/-- STATUS changes by the ENGINE's step, or by an accepted CMD write, which latches its word (R24, R102, R191). -/
theorem step_status_writer {s t : State} (h : step s = .next t) (hr : ∀ rest, s.inputs ≠ .reset :: rest)
    (hne : t.status ≠ s.status) :
    (s.status.busy = true ∧ ∃ ins, engineStep { s with inputs := ins } = .next t) ∨
    (s.status.busy = false ∧ t.status.toWord = 0x00000001 ∧ t.response = some .okayWrite ∧
      Issues s ⟨.write t.pending, 0x000, 4⟩) := by
  cases step_effect h with
  | reset rest ins hi _ => exact absurd hi (hr rest)
  | engine ins hb ht => exact .inl ⟨hb, ins, ht⟩
  | quiet hk => exact absurd hk.status hne
  | write a v o p u hb hsrc hk hw ht =>
    subst ht
    rcases memWrite_status hw with hs | ⟨rfl, rfl⟩
    · exact absurd (by rw [deliver_status, hs, hk.status]) hne
    · refine .inr ⟨hb, ?_, deliver_response .., ?_⟩
      · rw [deliver_status, startCommand_status]
        decide
      · rw [deliver_pending]
        exact hsrc

/-- Settles O48: STATUS by `step_status_writer`, everything else by `step_writers`. -/
theorem eachRegisterAndBufferHasItsWriters : Obligations.EachRegisterAndBufferHasItsWriters := by
  intro s t h hr
  obtain ⟨hdes, hhost, hemb, hserExt⟩ := step_writers h hr
  exact ⟨step_status_writer h hr, hdes, hhost, hemb, hserExt⟩

end Sys2Proof.Machine
end

section
/-! The host port: which transactions get `ERROR`, what the registers and the windows read and store, and what is held while
the ENGINE is busy; the statements of the family 20_memory.md. -/

namespace Sys2Proof.Machine

/-! ### Registers -/

/-- Every register stands at a multiple of 4 (R22). -/
theorem RegName.offset_aligned (r : RegName) : r.offset.toNat % 4 = 0 := by cases r <;> rfl

/-- A write to a writable register does what `writeRegister` says (R61). -/
theorem respond_register_write {s t : State} {v : Word} {r : RegName} (h : writeRegister s v r = some t) :
    respond ⟨.write v, r.offset, 4⟩ s = (.okayWrite, t) :=
  respond_write_okay ((wellFormed_iff _).mpr ⟨rfl, r.offset_aligned⟩) (by rw [memWrite_register, h])

/-- Settles O32: `respond_register` at each readable register. -/
theorem registerReadsReturnTheRegisters : Obligations.RegisterReadsReturnTheRegisters := fun _ =>
  ⟨respond_register (r := .status) rfl, respond_register (r := .msgLen) rfl, respond_register (r := .bitLen) rfl,
    respond_register (r := .pixLen) rfl, respond_register (r := .txtLen) rfl, respond_register (r := .capMsg) rfl,
    respond_register (r := .capTxt) rfl, respond_register (r := .capBit) rfl, respond_register (r := .capPix) rfl⟩

/-- Settles O34: `respond_register_write` at each writable register. -/
theorem registerWritesStoreEveryWord : Obligations.RegisterWritesStoreEveryWord := fun _ _ =>
  ⟨respond_register_write (r := .cmd) rfl, respond_register_write (r := .msgLen) rfl,
    respond_register_write (r := .bitLen) rfl, respond_register_write (r := .pixLen) rfl⟩

/-- Settles O33: of the two things a response can do (`respond_cases`), only a write does the second. -/
theorem readTransactionsHaveNoSideEffect : Obligations.ReadTransactionsHaveNoSideEffect := by
  intro tx s hk
  rcases respond_cases tx s with ⟨r, d, h, -⟩ | ⟨v, t, hw, -, -⟩
  · exact ⟨r, d, h⟩
  · cases hk.symm.trans hw

/-! ### Where an aligned address lies -/

/-- A read in a window's region is that window's `window_read` (R56, R57, R60). -/
theorem memRead_window {a : Word} {w : Window} {off : Nat} (s : State) (h : a.toNat = windowBase w + off)
    (ho : off < 2 ^ 28) : memRead s a = windowRead s w off := by
  obtain ⟨hw, hoff, hr⟩ := window_of_base h ho
  rw [memRead, if_neg hr, hw, Option.bind_some, hoff]

/-- A write in a window's region is that window's `window_write` (R56, R57, R61). -/
theorem memWrite_window {a : Word} {w : Window} {off : Nat} (s : State) (v : Word) (h : a.toNat = windowBase w + off)
    (ho : off < 2 ^ 28) : memWrite s a v = windowWrite s w off v := by
  obtain ⟨hw, hoff, hr⟩ := window_of_base h ho
  rw [memWrite, if_neg hr, hw, Option.bind_some, hoff]

/-- The registers stand on every multiple of 4 up to 0x024 (R22). -/
theorem exists_register_of_le {a : Word} (ha : a.toNat % 4 = 0) (h : a.toNat ≤ 0x024) : ∃ r : RegName, a = r.offset := by
  have hmap : ∀ k, k < 10 → ∃ r ∈ RegName.all, r.offset.toNat = 4 * k := by decide
  obtain ⟨r, -, hr⟩ := hmap (a.toNat / 4) (by omega)
  exact ⟨r, BitVec.eq_of_toNat_eq (by omega)⟩

/-- In regions 1 to 4 an address is an offset of the region's window (R56). -/
theorem exists_window_of_region {a : Word} (h1 : 1 ≤ a.toNat / 2 ^ 28) (h4 : a.toNat / 2 ^ 28 ≤ 4) :
    ∃ w, a.toNat = windowBase w + a.toNat % 2 ^ 28 := by
  obtain h | h | h | h : a.toNat / 2 ^ 28 = 1 ∨ a.toNat / 2 ^ 28 = 2 ∨ a.toNat / 2 ^ 28 = 3 ∨ a.toNat / 2 ^ 28 = 4 := by
    omega
  · exact ⟨.msg, by simp only [windowBase]; omega⟩
  · exact ⟨.txt, by simp only [windowBase]; omega⟩
  · exact ⟨.bit, by simp only [windowBase]; omega⟩
  · exact ⟨.pix, by simp only [windowBase]; omega⟩

/-- An address that is no register's and in no window's region: beyond the last register, or in regions 5 to 15 (R56). -/
abbrev NoRegion (a : Word) : Prop := (a.toNat / 2 ^ 28 = 0 ∧ 0x024 < a.toNat) ∨ 5 ≤ a.toNat / 2 ^ 28

/-- The whole map, for aligned addresses: a register, an offset in a window's region, or nothing (R22, R56). -/
theorem address_cases {a : Word} (ha : a.toNat % 4 = 0) :
    (∃ r : RegName, a = r.offset) ∨ (∃ w off, a.toNat = windowBase w + off ∧ off < 2 ^ 28) ∨ NoRegion a := by
  by_cases h0 : a.toNat / 2 ^ 28 = 0
  · rcases Nat.lt_or_ge 0x024 a.toNat with h | h
    · exact .inr (.inr (.inl ⟨h0, h⟩))
    · exact .inl (exists_register_of_le ha h)
  · rcases Nat.lt_or_ge (a.toNat / 2 ^ 28) 5 with h | h
    · obtain ⟨w, hw⟩ := exists_window_of_region (a := a) (by omega) (by omega)
      exact .inr (.inl ⟨w, _, hw, Nat.mod_lt _ (by decide)⟩)
    · exact .inr (.inr (.inr h))

/-- A region-0 address beyond the last register names no register (R22). -/
theorem registerAt_eq_none {a : Word} (h : 0x024 < a.toNat) : registerAt a = none := by
  cases hr : registerAt a with
  | none => rfl
  | some r =>
    obtain rfl := registerAt_eq_some hr
    exact absurd h (by cases r <;> decide)

/-- Regions 5 to 15 have no window (R56). -/
theorem windowAt_eq_none {a : Word} (h : 5 ≤ a.toNat / 2 ^ 28) : windowAt a = none := by
  unfold windowAt
  rw [regionOf_toNat]
  split
  case h_5 => rfl
  all_goals omega

/-- Nothing answers at such an address: no register and no window (R56). -/
theorem maps_nothing_of_noRegion {a : Word} (h : NoRegion a) :
    (regionOf a = 0 ∧ registerAt a = none) ∨ (regionOf a ≠ 0 ∧ windowAt a = none) := by
  rw [ne_eq, regionOf_eq_zero_iff]
  rcases h with ⟨h0, h⟩ | h
  · exact .inl ⟨h0, registerAt_eq_none h⟩
  · exact .inr ⟨by omega, windowAt_eq_none h⟩

theorem memRead_noRegion (s : State) {a : Word} (h : NoRegion a) : memRead s a = none := by
  rcases maps_nothing_of_noRegion h with ⟨h0, hn⟩ | ⟨h0, hn⟩ <;> simp only [memRead, h0, hn] <;> rfl

theorem memWrite_noRegion (s : State) (v : Word) {a : Word} (h : NoRegion a) : memWrite s a v = none := by
  rcases maps_nothing_of_noRegion h with ⟨h0, hn⟩ | ⟨h0, hn⟩ <;> simp only [memWrite, h0, hn] <;> rfl

/-! ### Bus errors -/

theorem windowRead_eq_none_iff (s : State) (w : Window) (off : Nat) :
    windowRead s w off = none ↔ w.size s.cfg ≤ off := by
  simp [windowRead]

/-- The host writes every window but TXT's (R57). -/
theorem Window.hostWrites_iff (w : Window) : w.hostWrites = true ↔ w ≠ .txt := by
  cases w <;> simp [Window.hostWrites]

theorem windowWrite_eq_none_iff (s : State) (w : Window) (off : Nat) (v : Word) :
    windowWrite s w off v = none ↔ w.size s.cfg ≤ off ∨ w = .txt := by
  by_cases h : w.size s.cfg ≤ off <;> simp [windowWrite, Window.hostWrites_iff, h]

/-- No register's address is unmapped or in a window (R56). -/
theorem not_unmapped_register (c : Config) (r : RegName) : ¬ Unmapped c r.offset := by
  cases r <;> simp [Unmapped, RegName.offset]

theorem badTransaction_read_register (c : Config) (r : RegName) :
    BadTransaction c ⟨.read, r.offset, 4⟩ ↔ r.access = .wo := by
  simp only [BadTransaction, r.offset_aligned, not_unmapped_register]
  cases r <;> simp [RegName.offset, RegName.access]

theorem badTransaction_write_register (c : Config) (v : Word) (r : RegName) :
    BadTransaction c ⟨.write v, r.offset, 4⟩ ↔ r.access = .ro := by
  simp only [BadTransaction, r.offset_aligned, not_unmapped_register]
  cases r <;> simp [RegName.offset, RegName.access]

/-- An offset of a window's region is unmapped exactly when the window does not reach it (R57). -/
theorem unmapped_window_iff (c : Config) {a : Word} {w : Window} {off : Nat} (h : a.toNat = windowBase w + off)
    (ho : off < 2 ^ 28) : Unmapped c a ↔ w.size c ≤ off := by
  cases w <;> simp only [windowBase, Window.size, Unmapped] at h ⊢ <;> omega

/-- A window's addresses are no register's (R56). -/
theorem window_ne {a k : Word} {w : Window} {off : Nat} (h : a.toNat = windowBase w + off) (hk : k.toNat < 2 ^ 28) :
    a ≠ k := by
  rintro rfl
  cases w <;> simp only [windowBase] at h <;> omega

theorem badTransaction_read_window (c : Config) {a : Word} {w : Window} {off : Nat} (ha : a.toNat % 4 = 0)
    (h : a.toNat = windowBase w + off) (ho : off < 2 ^ 28) :
    BadTransaction c ⟨.read, a, 4⟩ ↔ w.size c ≤ off := by
  have hn : ∀ k : Word, k.toNat < 2 ^ 28 → a ≠ k := fun _ => window_ne h
  simp only [BadTransaction, unmapped_window_iff c h ho]
  simp [ha, hn]

theorem badTransaction_write_window (c : Config) (v : Word) {a : Word} {w : Window} {off : Nat} (ha : a.toNat % 4 = 0)
    (h : a.toNat = windowBase w + off) (ho : off < 2 ^ 28) :
    BadTransaction c ⟨.write v, a, 4⟩ ↔ w.size c ≤ off ∨ w = .txt := by
  have hn : ∀ k : Word, k.toNat < 2 ^ 28 → a ≠ k := fun _ => window_ne h
  have htxt : a.toNat / 2 ^ 28 = 2 ↔ w = .txt := by
    cases w <;> simp only [windowBase] at h <;> simp <;> omega
  simp only [BadTransaction, unmapped_window_iff c h ho, htxt]
  simp [ha, hn]

theorem badTransaction_of_noRegion (c : Config) (kind : BusKind) (n : Nat) {a : Word} (h : NoRegion a) :
    BadTransaction c ⟨kind, a, n⟩ :=
  .inr (.inr (.inl (h.imp id fun h => .inr (.inr (.inr (.inr h))))))

/-- An aligned word read fails exactly where R59 says. -/
theorem memRead_eq_none_iff (s : State) {a : Word} (ha : a.toNat % 4 = 0) :
    memRead s a = none ↔ BadTransaction s.cfg ⟨.read, a, 4⟩ := by
  rcases address_cases ha with ⟨r, rfl⟩ | ⟨w, off, h, ho⟩ | h
  · rw [memRead_register, Option.map_eq_none_iff, readRegister_eq_none_iff, badTransaction_read_register]
  · rw [memRead_window s h ho, windowRead_eq_none_iff, badTransaction_read_window _ ha h ho]
  · exact iff_of_true (memRead_noRegion s h) (badTransaction_of_noRegion _ _ _ h)

/-- An aligned word write fails exactly where R59 says. -/
theorem memWrite_eq_none_iff (s : State) (v : Word) {a : Word} (ha : a.toNat % 4 = 0) :
    memWrite s a v = none ↔ BadTransaction s.cfg ⟨.write v, a, 4⟩ := by
  rcases address_cases ha with ⟨r, rfl⟩ | ⟨w, off, h, ho⟩ | h
  · rw [memWrite_register, writeRegister_eq_none_iff, badTransaction_write_register]
  · rw [memWrite_window s v h ho, windowWrite_eq_none_iff, badTransaction_write_window _ v ha h ho]
  · exact iff_of_true (memWrite_noRegion s v h) (badTransaction_of_noRegion _ _ _ h)

/-- Which transactions are answered with a bus error. -/
theorem badTransaction_iff_error (tx : BusTx) (s : State) :
    BadTransaction s.cfg tx ↔ ∃ v, (respond tx s).1 = .error v := by
  by_cases hw : tx.wellFormed = true
  · obtain ⟨kind, a, n⟩ := tx
    obtain ⟨rfl, ha⟩ : n = 4 ∧ a.toNat % 4 = 0 := (wellFormed_iff _).mp hw
    cases kind with
    | read =>
      rw [← memRead_eq_none_iff s ha]
      cases hr : memRead s a with
      | none => simp [respond_read_error hw hr, busError]
      | some vd => simp [respond_read_okay hw (v := vd.1) (d := vd.2) hr]
    | write v =>
      rw [← memWrite_eq_none_iff s v ha]
      cases hr : memWrite s a v with
      | none => simp [respond_write_error hw hr, busError]
      | some t => simp [respond_write_okay hw hr]
  · refine iff_of_true ?_ ⟨_, by rw [respond_malformed s (by simpa using hw)]; rfl⟩
    rw [wellFormed_iff] at hw
    exact (Decidable.not_and_iff_not_or_not.mp hw).imp id .inl

/-- Settles O31: `badTransaction_iff_error`, and of the two things a response can do (`respond_cases`) an error is the first. -/
theorem badTransactionsGetErrorAndChangeNothing : Obligations.BadTransactionsGetErrorAndChangeNothing := by
  refine fun tx s => ⟨badTransaction_iff_error tx s, fun hbad => ?_⟩
  obtain ⟨v, hv⟩ := (badTransaction_iff_error tx s).mp hbad
  rcases respond_cases tx s with ⟨r, d, h, -⟩ | ⟨w, t, -, -, h⟩
  · exact ⟨d, by rw [h]⟩
  · rw [h] at hv
    cases hv

end Sys2Proof.Machine
end

section
/-! The windows: what a read gives in each lane, which elements a write changes, and that a word reads back; the statements of
the family 20_memory.md about the four buffers. -/

namespace Sys2Proof.Machine

/-! ### Window transactions -/

/-- An aligned offset of a window is an aligned address (R52, R56). -/
theorem window_aligned {a : Word} {w : Window} {off : Nat} (h : a.toNat = windowBase w + off) (ho : off % 4 = 0) :
    a.toNat % 4 = 0 := by
  cases w <;> simp only [windowBase] at h <;> omega

section
variable {s : State} {a v : Word} {w : Window} {off : Nat} (h : a.toNat = windowBase w + off) (ha : off % 4 = 0)
include h ha

theorem respond_window_read {r : Word} {d : Nat} (ho : off < 2 ^ 28) (hr : windowRead s w off = some (r, d)) :
    respond ⟨.read, a, 4⟩ s = (.okayRead r, { s with draws := d }) :=
  respond_read_okay ((wellFormed_iff _).mpr ⟨rfl, window_aligned h ha⟩) (by rw [memRead_window s h ho, hr])

/-- A write to a mapped offset of a writable window writes the lanes that exist (R57, R58, R61). -/
theorem respond_window_write (hc : s.cfg.Legal) (ho : off < w.size s.cfg) (hw : w ≠ .txt) :
    respond ⟨.write v, a, 4⟩ s = (.okayWrite,
      { s with mem := writeLanes s.cfg w s.mem off ((bytesOfWord v).take (lanesAt (w.size s.cfg) off)) }) := by
  refine respond_write_okay ((wellFormed_iff _).mpr ⟨rfl, window_aligned h ha⟩) ?_
  rw [memWrite_window s v h (Nat.lt_of_lt_of_le ho (Window.size_le hc w)), windowWrite, if_neg (Nat.not_le.mpr ho),
    if_pos ((Window.hostWrites_iff w).mpr hw)]
end

/-! ### Reading a lane -/

section
variable {c : Config} {m : Memory} {w : Window} {j d : Nat}

/-- A written byte of MSG, TXT or PIX is what its lane reads, and nothing is drawn (R60). -/
theorem readLane_written {b : Byte} (h : w = .msg ∧ m.msg.read? j = some b ∨ w = .txt ∧ m.txt.read? j = some b ∨
    w = .pix ∧ m.pix.read? j = some b) : readLane c m w j d = (b, d) := by
  rcases h with ⟨rfl, h⟩ | ⟨rfl, h⟩ | ⟨rfl, h⟩ <;> exact Buffer.draw_of_written h d

theorem readLane_bit (c : Config) (m : Memory) (j d : Nat) :
    readLane c m .bit j d =
      (byte8 ((m.bit.drawRun Config.freeBit (8 * j) (bitsInByte c j) d).1 ++
          List.replicate (8 - bitsInByte c j) false),
        (m.bit.drawRun Config.freeBit (8 * j) (bitsInByte c j) d).2) := rfl

/-- Bit `7 - b` of a byte packed from `g` and zeros: the b-th of `g`, or 0 beyond (R33). -/
theorem byte8_padded_getLsbD (g : List Bit) (hg : g.length ≤ 8) {b : Nat} (hb : b < 8) :
    (byte8 (g ++ List.replicate (8 - g.length) false)).getLsbD (7 - b) = g[b]?.getD false := by
  have h := byte8_getLsbD (g ++ List.replicate (8 - g.length) false) (by simp; omega) hb
  rcases Nat.lt_or_ge b g.length with hlt | hge
  · rw [List.getElem?_append_left hlt] at h
    rw [← h, Option.getD_some]
  · rw [List.getElem?_append_right hge, List.getElem?_replicate, if_pos (by omega)] at h
    rw [List.getElem?_eq_none hge]
    exact Option.some.inj h

theorem bitsInByte_le (c : Config) (j : Nat) : bitsInByte c j ≤ 8 := Nat.min_le_left ..

theorem lt_bitsInByte_iff {b : Nat} (hb : b < 8) : b < bitsInByte c j ↔ 8 * j + b < c.bitCap := by
  simp only [bitsInByte]
  omega

/-- Bit `7 - b` of a lane of BIT: bit `8j + b`, or 0 beyond BIT_CAP (R33). -/
theorem readLane_bit_getLsbD {b : Nat} (hb : b < 8) :
    (readLane c m .bit j d).1.getLsbD (7 - b) =
      (m.bit.drawRun Config.freeBit (8 * j) (bitsInByte c j) d).1[b]?.getD false := by
  have h := byte8_padded_getLsbD (m.bit.drawRun Config.freeBit (8 * j) (bitsInByte c j) d).1
    (by simpa using bitsInByte_le c j) hb
  rwa [Buffer.drawRun_length] at h

theorem readLane_bit_absent {b : Nat} (hb : b < 8) (h : c.bitCap ≤ 8 * j + b) :
    (readLane c m .bit j d).1.getLsbD (7 - b) = false := by
  rw [readLane_bit_getLsbD hb, List.getElem?_eq_none]
  · rfl
  · rw [Buffer.drawRun_length, ← Nat.not_lt, lt_bitsInByte_iff hb]
    omega

theorem readLane_bit_written {b : Nat} {x : Bit} (hb : b < 8) (h : 8 * j + b < c.bitCap)
    (hx : m.bit.read? (8 * j + b) = some x) : (readLane c m .bit j d).1.getLsbD (7 - b) = x := by
  rw [readLane_bit_getLsbD hb, Buffer.drawRun_written ((lt_bitsInByte_iff hb).mpr h) hx]
  rfl

/-! ### Reading the lanes of a word -/

theorem readLanes_succ (c : Config) (m : Memory) (w : Window) (j n d : Nat) :
    readLanes c m w j (n + 1) d =
      ((readLane c m w j d).1 :: (readLanes c m w (j + 1) n (readLane c m w j d).2).1,
        (readLanes c m w (j + 1) n (readLane c m w j d).2).2) := rfl

@[simp] theorem readLanes_length (c : Config) (m : Memory) (w : Window) (j n d : Nat) :
    (readLanes c m w j n d).1.length = n := by
  induction n generalizing j d with
  | zero => rfl
  | succ n ih => rw [readLanes_succ, List.length_cons, ih]

/-- Each of the bytes is its lane's, read after some number of draws. -/
theorem readLanes_getElem? {n k : Nat} (hk : k < n) :
    ∃ e, (readLanes c m w j n d).1[k]? = some (readLane c m w (j + k) e).1 := by
  induction n generalizing j d k with
  | zero => omega
  | succ n ih =>
    rw [readLanes_succ]
    cases k with
    | zero => exact ⟨d, rfl⟩
    | succ k =>
      obtain ⟨e, he⟩ := ih (j := j + 1) (d := (readLane c m w j d).2) (Nat.lt_of_succ_lt_succ hk)
      exact ⟨e, by rw [List.getElem?_cons_succ, he, Nat.add_right_comm, Nat.add_assoc]⟩

/-- Lanes that draw nothing draw nothing together. -/
theorem readLanes_draws {n : Nat} (h : ∀ k, k < n → ∀ e, (readLane c m w (j + k) e).2 = e) :
    (readLanes c m w j n d).2 = d := by
  induction n generalizing j d with
  | zero => rfl
  | succ n ih =>
    have h0 : (readLane c m w j d).2 = d := h 0 n.succ_pos d
    rw [readLanes_succ, h0, ih]
    intro k hk e
    rw [Nat.add_assoc, Nat.add_comm 1]
    exact h (k + 1) (Nat.succ_lt_succ hk) e

/-- Lane `n` of a word made of at most four bytes, and zeros for the missing ones (R53, R58). -/
theorem wordOfBytes_getD_lane (bs : List Byte) {n : Nat} (hn : n < 4) :
    (wordOfBytes (bs.getD 0 0) (bs.getD 1 0) (bs.getD 2 0) (bs.getD 3 0)).extractLsb' (8 * n) 8 = bs.getD n 0 := by
  refine Option.some.inj ((wordOfBytes_lane _ _ _ _ hn).trans ?_)
  interval_cases n <;> rfl
end

/-- What `window_read` answers at a mapped offset (R53, R58, R60): in each lane the byte that is there, or 0, and the counter as
it was if no lane draws. -/
theorem windowRead_spec {s : State} {w : Window} {off : Nat} (ho : off < w.size s.cfg) :
    ∃ r d, windowRead s w off = some (r, d) ∧
      (∀ n, n < 4 → w.size s.cfg ≤ off + n → r.extractLsb' (8 * n) 8 = 0) ∧
      (∀ n, n < 4 → off + n < w.size s.cfg →
        ∃ e, r.extractLsb' (8 * n) 8 = (readLane s.cfg s.mem w (off + n) e).1) ∧
      ((∀ n, off + n < w.size s.cfg → n < 4 → ∀ e, (readLane s.cfg s.mem w (off + n) e).2 = e) → d = s.draws) := by
  refine ⟨_, _, if_neg (Nat.not_le.mpr ho), ?_, ?_, ?_⟩
  · intro n hn hlen
    rw [wordOfBytes_getD_lane _ hn, List.getD_eq_default]
    rw [readLanes_length, lanesAt]
    omega
  · intro n hn hlen
    obtain ⟨e, he⟩ := readLanes_getElem? (c := s.cfg) (m := s.mem) (w := w) (j := off) (d := s.draws)
      (show n < lanesAt (w.size s.cfg) off by rw [lanesAt]; omega)
    exact ⟨e, by rw [wordOfBytes_getD_lane _ hn, List.getD_eq_getElem?_getD, he, Option.getD_some]⟩
  · exact fun h => readLanes_draws fun k hk => h k (by rw [lanesAt] at hk; omega) (by rw [lanesAt] at hk; omega)

/-- A bit of a lane is a bit of the word (R53). -/
theorem getLsbD_lane (r : Word) (n : Nat) {b : Nat} :
    r.getLsbD (8 * n + (7 - b)) = (r.extractLsb' (8 * n) 8).getLsbD (7 - b) := by
  rw [BitVec.getLsbD_extractLsb', decide_eq_true (by omega), Bool.true_and]

/-- Settles O35: `windowRead_spec` gives each lane, and the lane's own lemmas its byte or its bits. -/
theorem windowReadGivesTheBytesOfItsLanes : Obligations.WindowReadGivesTheBytesOfItsLanes := by
  intro s w a off hc h ha ho
  obtain ⟨r, d, hr, hzero, hlane, -⟩ := windowRead_spec ho
  refine ⟨r, d, respond_window_read h ha (Nat.lt_of_lt_of_le ho (Window.size_le hc w)) hr, fun n hn =>
    ⟨hzero n hn, fun b hlt hb => ?_, fun b hlt hw hb => ?_⟩⟩
  · obtain ⟨e, he⟩ := hlane n hn hlt
    rw [he, readLane_written hb]
  · subst hw
    obtain ⟨e, he⟩ := hlane n hn hlt
    rw [getLsbD_lane, he]
    exact ⟨readLane_bit_absent hb, fun x => readLane_bit_written hb⟩

/-! ### What a window write changes -/

/-- From `m` to `m'` only the elements of the `n` lanes of window `w` from lane `j` on changed, and TXT did not. -/
structure LanesFrame (w : Window) (j n : Nat) (m m' : Memory) : Prop where
  txt : m'.txt = m.txt
  msg : ∀ i, ¬ (w = .msg ∧ j ≤ i ∧ i < j + n) → m'.msg.read? i = m.msg.read? i
  pix : ∀ i, ¬ (w = .pix ∧ j ≤ i ∧ i < j + n) → m'.pix.read? i = m.pix.read? i
  bit : ∀ i, ¬ (w = .bit ∧ 8 * j ≤ i ∧ i < 8 * (j + n)) → m'.bit.read? i = m.bit.read? i

theorem LanesFrame.mono {w : Window} {j n k : Nat} {m m' : Memory} (h : LanesFrame w j n m m') (hk : n ≤ k) :
    LanesFrame w j k m m' where
  txt := h.txt
  msg i hi := h.msg i fun ⟨hw, h1, h2⟩ => hi ⟨hw, h1, by omega⟩
  pix i hi := h.pix i fun ⟨hw, h1, h2⟩ => hi ⟨hw, h1, by omega⟩
  bit i hi := h.bit i fun ⟨hw, h1, h2⟩ => hi ⟨hw, h1, by omega⟩

theorem LanesFrame.trans {w : Window} {j n k : Nat} {m m1 m2 : Memory} (h1 : LanesFrame w j n m m1)
    (h2 : LanesFrame w (j + n) k m1 m2) : LanesFrame w j (n + k) m m2 where
  txt := h2.txt.trans h1.txt
  msg i hi := (h2.msg i fun ⟨hw, _, _⟩ => hi ⟨hw, by omega, by omega⟩).trans
    (h1.msg i fun ⟨hw, _, _⟩ => hi ⟨hw, by omega, by omega⟩)
  pix i hi := (h2.pix i fun ⟨hw, _, _⟩ => hi ⟨hw, by omega, by omega⟩).trans
    (h1.pix i fun ⟨hw, _, _⟩ => hi ⟨hw, by omega, by omega⟩)
  bit i hi := (h2.bit i fun ⟨hw, _, _⟩ => hi ⟨hw, by omega, by omega⟩).trans
    (h1.bit i fun ⟨hw, _, _⟩ => hi ⟨hw, by omega, by omega⟩)

theorem LanesFrame.refl (w : Window) (j n : Nat) (m : Memory) : LanesFrame w j n m m :=
  ⟨rfl, fun _ _ => rfl, fun _ _ => rfl, fun _ _ => rfl⟩

theorem writeLane_frame (c : Config) (m : Memory) (w : Window) (j : Nat) (v : Byte) :
    LanesFrame w j 1 m (writeLane c m w j v) := by
  cases w with
  | msg =>
    exact { LanesFrame.refl .msg j 1 m with
      msg := fun i hi => Buffer.read?_write_of_ne _ _ fun he => hi ⟨rfl, by omega, by omega⟩ }
  | txt => exact .refl ..
  | bit =>
    refine { LanesFrame.refl .bit j 1 m with bit := fun i hi => Buffer.read?_writeFrom_outside _ ?_ }
    rw [List.length_take, bits8_length]
    by_contra hne
    exact hi ⟨rfl, by omega, by omega⟩
  | pix =>
    exact { LanesFrame.refl .pix j 1 m with
      pix := fun i hi => Buffer.read?_write_of_ne _ _ fun he => hi ⟨rfl, by omega, by omega⟩ }

theorem writeLanes_frame (c : Config) (w : Window) (m : Memory) (j : Nat) (vs : List Byte) :
    LanesFrame w j vs.length m (writeLanes c w m j vs) := by
  induction vs generalizing m j with
  | nil => exact .refl ..
  | cons v vs ih => exact ((writeLane_frame c m w j v).trans (ih _ _)).mono (by rw [List.length_cons]; omega)

/-- Settles O37: an accepted window write is `writeLanes` on at most four lanes, whose frame is `writeLanes_frame`. -/
theorem windowWriteChangesItsLanesOnly : Obligations.WindowWriteChangesItsLanesOnly := by
  intro s t w a v off h ho hr
  obtain ⟨r, d, hr', hne⟩ | ⟨v', u, -, hw, hr'⟩ := respond_cases ⟨.write v, a, 4⟩ s
  · cases hr.symm.trans hr'
    exact absurd rfl hne
  · cases hr.symm.trans hr'
    rw [memWrite_window s v' h ho] at hw
    obtain ⟨-, -, rfl⟩ := windowWrite_eq hw
    have hf := (writeLanes_frame s.cfg w s.mem off ((bytesOfWord v').take (lanesAt (w.size s.cfg) off))).mono
      (List.length_take_le' ..)
    exact ⟨rfl, hf.txt, hf.msg, hf.pix, hf.bit⟩

/-! ### A written lane reads back -/

/-- What a lane reads as after a write of `v`: `v`, but for BIT with the bits beyond BIT_CAP 0 (R33, R61). -/
def storedByte (c : Config) (w : Window) (j : Nat) (v : Byte) : Byte :=
  match w with
  | .bit => byte8 ((bits8 v).take (bitsInByte c j) ++ List.replicate (8 - bitsInByte c j) false)
  | .msg => v
  | .txt => v
  | .pix => v

theorem bits8_take_length (c : Config) (j : Nat) (v : Byte) :
    ((bits8 v).take (bitsInByte c j)).length = bitsInByte c j := by
  rw [List.length_take, bits8_length, Nat.min_eq_left (bitsInByte_le c j)]

theorem storedByte_getLsbD (c : Config) (w : Window) (j : Nat) (v : Byte) {b : Nat} (hb : b < 8) :
    (storedByte c w j v).getLsbD (7 - b) =
      ((decide (w ≠ .bit) || decide (8 * j + b < c.bitCap)) && v.getLsbD (7 - b)) := by
  cases w with
  | bit =>
    have h := byte8_padded_getLsbD ((bits8 v).take (bitsInByte c j)) (List.length_take_le' _ (bits8 v)) hb
    rw [bits8_take_length] at h
    rw [storedByte, h, List.getElem?_take, bits8_getElem? v hb]
    simp only [lt_bitsInByte_iff hb]
    split <;> simp [*]
  | msg | txt | pix => simp [storedByte]

theorem readLane_writeLane_self (c : Config) (m : Memory) {w : Window} (hw : w ≠ .txt) (j : Nat) (v : Byte) (d : Nat) :
    readLane c (writeLane c m w j v) w j d = (storedByte c w j v, d) := by
  cases w with
  | txt => exact absurd rfl hw
  | msg => exact Buffer.draw_of_written (Buffer.read?_write_self ..) d
  | pix => exact Buffer.draw_of_written (Buffer.read?_write_self ..) d
  | bit =>
    have hrun := Buffer.drawRun_of_written (free := Config.freeBit) (d := d) (vs := (bits8 v).take (bitsInByte c j))
      fun k => Buffer.read?_writeFrom_inside m.bit (i := 8 * j)
    rw [bits8_take_length] at hrun
    rw [readLane_bit, writeLane, hrun]
    rfl

/-- A lane before those that changed reads as before. -/
theorem LanesFrame.readLane_eq {w : Window} {i n : Nat} {m m' : Memory} (h : LanesFrame w i n m m') (c : Config) {j : Nat}
    (hj : j < i) (d : Nat) : readLane c m' w j d = readLane c m w j d := by
  cases w with
  | msg => simp only [readLane, Buffer.draw, h.msg j fun ⟨_, _, _⟩ => by omega]
  | txt => simp only [readLane, h.txt]
  | pix => simp only [readLane, Buffer.draw, h.pix j fun ⟨_, _, _⟩ => by omega]
  | bit =>
    have hrun : ∀ k, k < bitsInByte c j → m'.bit.read? (8 * j + k) = m.bit.read? (8 * j + k) := fun k hk =>
      h.bit _ fun ⟨_, _, _⟩ => by have := bitsInByte_le c j; omega
    rw [readLane_bit, readLane_bit, Buffer.drawRun_congr hrun]

/-- After a run of lane writes each lane reads its own byte, and draws nothing. -/
theorem readLane_writeLanes (c : Config) (m : Memory) {w : Window} (hw : w ≠ .txt) (j : Nat) {vs : List Byte} {k : Nat}
    {v : Byte} (hv : vs[k]? = some v) (d : Nat) :
    readLane c (writeLanes c w m j vs) w (j + k) d = (storedByte c w (j + k) v, d) := by
  induction vs generalizing m j k with
  | nil => cases hv
  | cons x vs ih =>
    rw [writeLanes]
    cases k with
    | zero =>
      obtain rfl : x = v := by simpa using hv
      show readLane c _ w j d = (storedByte c w j x, d)
      rw [(writeLanes_frame c w _ (j + 1) vs).readLane_eq c j.lt_succ_self,
        readLane_writeLane_self c m hw]
    | succ k =>
      rw [show j + (k + 1) = j + 1 + k by omega]
      exact ih _ _ (by simpa using hv)

/-- The lanes a word write stores (R58). -/
theorem bytesOfWord_take_getElem? (v : Word) {size off n : Nat} (hn : n < 4) (hlt : off + n < size) :
    ((bytesOfWord v).take (lanesAt size off))[n]? = some (v.extractLsb' (8 * n) 8) := by
  rw [List.getElem?_take_of_lt (by rw [lanesAt]; omega), bytesOfWord_getElem? v hn]

/-- Settles O36: after the write each lane that exists reads its stored byte (`readLane_writeLanes`), so nothing is drawn. -/
theorem windowWordReadsBackInItsLanes : Obligations.WindowWordReadsBackInItsLanes := by
  intro s w a v off hc h hw ha ho
  have hback := fun n hlt (hn : n < 4) =>
    readLane_writeLanes s.cfg s.mem hw off (bytesOfWord_take_getElem? v (size := w.size s.cfg) (off := off) hn hlt)
  obtain ⟨r, d, hr, hzero, hlane, hdraws⟩ := windowRead_spec (s := { s with
    mem := writeLanes s.cfg w s.mem off ((bytesOfWord v).take (lanesAt (w.size s.cfg) off)) }) ho
  obtain rfl := hdraws fun n hlt hn e => by rw [hback n hlt hn]
  refine ⟨_, r, respond_window_write h ha hc ho hw,
    respond_window_read h ha (Nat.lt_of_lt_of_le ho (Window.size_le hc w)) hr, fun n b hn hb => ?_⟩
  rw [getLsbD_lane, getLsbD_lane]
  rcases Nat.lt_or_ge (off + n) (w.size s.cfg) with hlt | hge
  · obtain ⟨e, he⟩ := hlane n hn hlt
    rw [he, hback n hlt hn, storedByte_getLsbD _ _ _ _ hb, decide_eq_true hlt, Bool.true_and]
  · rw [hzero n hn hge, decide_eq_false (Nat.not_lt.mpr hge)]
    simp

end Sys2Proof.Machine
end

section
/-! The busy stall: what a step does with the transaction on the port while a command runs and after it has ended
(20_memory.md R62). -/

namespace Sys2Proof.Machine

/-- While a transaction is held, the host issues nothing (R50): every step but a reset is the block's move. -/
theorem step_of_held {s : State} {h : Held} (hc : s.cfg.Legal) (hh : s.held = some h)
    (hr : ∀ rest, s.inputs ≠ .reset :: rest) :
    ∃ ins, (ins = s.inputs ∨ s.inputs = .blockTurn :: ins) ∧ step s = blockMove { s with inputs := ins } := by
  rw [step_legal hc, turn]
  split
  · exact ⟨_, .inl rfl, if_pos (by simp [hh])⟩
  · next rest hi => exact absurd hi (hr rest)
  · next rest hi => exact ⟨rest, .inr hi, rfl⟩
  · exact ⟨_, .inl rfl, if_pos (by simp [hh])⟩
  · exact ⟨_, .inl rfl, if_pos (by simp [hh])⟩

/-- With nothing held, a transaction of the host stream is issued (R50, R67). -/
theorem step_issue {s : State} {tx : BusTx} {rest : List Input} (hc : s.cfg.Legal) (hh : s.held = none)
    (hi : s.inputs = .issue tx :: rest) : step s = .next (issue ⟨tx, .stream⟩ { s with inputs := rest }) := by
  simp [step_legal hc, turn, hi, hh]

/-- The ENGINE's step always ends the command, and never touches the port (R62, R104). -/
theorem engineStep_ends (s : State) :
    ∃ t, engineStep s = .next t ∧ t.status.busy = false ∧ t.held = s.held ∧ t.response = s.response := by
  rcases engineStep_cases s with ⟨e, he⟩ | ⟨i, t, -, he, -, hf, hne, hdes⟩
  · exact ⟨_, he, rfl, rfl, rfl⟩
  · refine ⟨t, he, ?_, hf.held, hf.response⟩
    by_cases hi : i = .des
    · obtain ⟨f, hs⟩ := hdes hi
      rw [hs, Status.completed_busy]
    · rw [hne hi, Status.completed_busy]

/-- While busy, a well-formed transaction that is no STATUS read is held (R62). -/
theorem isHeld_of_busy {s : State} {tx : BusTx} (hb : s.status.busy = true) (hw : tx.wellFormed = true)
    (hs : ¬ (tx.kind = .read ∧ tx.addr = 0x004)) : isHeld tx s = true := by
  rw [isHeld, hb, hw, ← Bool.decide_and, RegName.offset, decide_eq_false hs]
  rfl

/-- A malformed transaction is answered with `ERROR` at once (R51, R52, R62). -/
theorem issue_malformed {s : State} {h : Held} (hw : h.tx.wellFormed = false) :
    issue h s = deliver h.origin (busError s).1 (busError s).2 := by
  rw [issue_not_held (by simp [isHeld, hw]), answer_eq, respond_malformed s hw]

/-- Settles O38: a transaction that arrives while busy by `step_issue`, one that is held by `step_of_held`. -/
theorem busyStallHoldsTransactions : Obligations.BusyStallHoldsTransactions := by
  refine ⟨fun s tx rest hc hb hn hi => ?_, fun s h hc hb hh hr => ?_, fun s h hc hb hh hr => ?_⟩
  · rw [step_issue hc hn hi, ← wellFormed_iff]
    refine ⟨fun hw hs => congrArg _ (issue_held (isHeld_of_busy hb hw hs)), fun hw => ?_⟩
    exact ⟨_, _, congrArg _ (issue_malformed (by simpa using hw))⟩
  · obtain ⟨ins, -, hstep⟩ := step_of_held hc hh hr
    obtain ⟨t, ht, hbusy, hheld, hresp⟩ := engineStep_ends { s with inputs := ins }
    exact ⟨t, by rw [hstep, blockMove, if_pos hb, ht], hbusy, hheld.trans hh, hresp⟩
  · obtain ⟨ins, hins, hstep⟩ := step_of_held hc hh hr
    refine ⟨ins, hins, ?_⟩
    rw [hstep, issue_not_held (s := { s with held := none, inputs := ins }) (isHeld_of_idle hb _)]
    simp [blockMove, hb, hh]

end Sys2Proof.Machine
end

section
/-! Command words: the decoder against the encoder, on words and on bytes, and what an illegal word does; the statements of the
family 30_encoding.md about its sections 1 and 2. -/

namespace Sys2Proof.Machine

/-! ### Words -/

theorem encode_eq_commandWord (i : Instr) : encode i = commandWord i := by cases i <;> rfl

/-- The full mask of R83 masks nothing. -/
theorem and_fullMask (w : Word) : w &&& 0xFFFFFFFF = w := BitVec.and_allOnes

/-- Every row of the table has the full mask, and its own command's word as the value to match (R82, R83). -/
theorem opcodeTable_rows : ∀ r ∈ opcodeTable, r.mask = 0xFFFFFFFF ∧ r.value = encode r.instr := by decide

theorem decodeWord_encode (i : Instr) : decodeWord (encode i) = .ok i := by cases i <;> rfl

/-- The decoder inverts the encoder, and reads no other word as a command (R83). -/
theorem decodeWord_eq_ok_iff {w : Word} {i : Instr} : decodeWord w = .ok i ↔ w = encode i := by
  refine ⟨fun h => ?_, fun h => h ▸ decodeWord_encode i⟩
  simp only [decodeWord] at h
  split at h
  · next r hr =>
    obtain ⟨hmask, hvalue⟩ := opcodeTable_rows r (List.mem_of_find?_eq_some hr)
    have hsel : w &&& r.mask = r.value := by simpa [OpRow.selects] using List.find?_some hr
    rw [hmask, hvalue, and_fullMask] at hsel
    rw [hsel, Except.ok.inj h]
  · cases h

/-- A word is illegal exactly when it is no command's word. -/
theorem decodeWord_error_iff {w : Word} : (∃ e, decodeWord w = .error e) ↔ ∀ i, w ≠ encode i := by
  simp only [ne_eq, ← decodeWord_eq_ok_iff]
  cases decodeWord w <;> simp

/-- Settles O4: `decodeWord_eq_ok_iff` and `decodeWord_error_iff`, the full mask masking nothing. -/
theorem decodingSelectsExactlyTheMatchingRow : Obligations.DecodingSelectsExactlyTheMatchingRow := by
  simp only [Obligations.DecodingSelectsExactlyTheMatchingRow, and_fullMask, ← encode_eq_commandWord]
  exact ⟨fun _ _ => decodeWord_eq_ok_iff, fun _ => decodeWord_error_iff⟩

/-- Settles O3: by evaluation, the words being written out. -/
theorem commandWordsDecodeAsTheTableSays : Obligations.CommandWordsDecodeAsTheTableSays := by
  unfold Obligations.CommandWordsDecodeAsTheTableSays
  decide

/-! ### Bytes -/

/-- The lanes of a word made of four bytes are these bytes (20_memory.md R53). -/
theorem bytesOfWord_wordOfBytes (b0 b1 b2 b3 : Byte) : bytesOfWord (wordOfBytes b0 b1 b2 b3) = [b0, b1, b2, b3] := by
  refine List.ext_getElem? fun n => ?_
  rcases Nat.lt_or_ge n 4 with hn | hn
  · rw [bytesOfWord_getElem? _ hn, wordOfBytes_lane _ _ _ _ hn]
  · rw [List.getElem?_eq_none (by simpa using hn), List.getElem?_eq_none (by simpa using hn)]

/-- Bytes that begin with a word's lanes decode as the word, and leave the bytes after it (R81). -/
theorem decode_bytesOfWord_append (w : Word) (rest : List Byte) :
    decode (bytesOfWord w ++ rest) = (decodeWord w).map (·, rest) := by
  simp only [bytesOfWord, List.cons_append, List.nil_append, decode, wordOfBytes_bytesOfWord]

/-- Bytes that decode begin with the lanes of a word: fewer than four are no command (R81). -/
theorem exists_word_of_decode_ok {bs rest : List Byte} {i : Instr} (h : decode bs = .ok (i, rest)) :
    ∃ w tail, bs = bytesOfWord w ++ tail := by
  match bs with
  | b0 :: b1 :: b2 :: b3 :: tail => exact ⟨wordOfBytes b0 b1 b2 b3, tail, by rw [bytesOfWord_wordOfBytes]; rfl⟩
  | [] | [_] | [_, _] | [_, _, _] => cases h

/-- The decoder takes a command from bytes exactly when its encoding is at their head. -/
theorem decode_eq_ok_iff {bs rest : List Byte} {i : Instr} :
    decode bs = .ok (i, rest) ↔ bs = encodeBytes i ++ rest := by
  constructor
  · intro h
    obtain ⟨w, tail, rfl⟩ := exists_word_of_decode_ok h
    rw [decode_bytesOfWord_append] at h
    cases hw : decodeWord w with
    | error e => rw [hw] at h; cases h
    | ok j =>
      rw [hw] at h
      cases h
      rw [decodeWord_eq_ok_iff.mp hw, encodeBytes]
  · rintro rfl
    rw [encodeBytes, decode_bytesOfWord_append, decodeWord_encode]
    rfl

/-- Settles O5: `decode_eq_ok_iff` and `encode_eq_commandWord`. -/
theorem decodeAndEncodeAgree : Obligations.DecodeAndEncodeAgree :=
  ⟨fun _ _ _ => decode_eq_ok_iff, encode_eq_commandWord⟩

/-! ### Illegal words -/

/-- The command words are the values 1 to 4 (R82). -/
theorem exists_encode_iff (w : Word) : (∃ i, w = encode i) ↔ 1 ≤ w.toNat ∧ w.toNat ≤ 4 := by
  simp only [← BitVec.toNat_inj, encode_toNat]
  constructor
  · rintro ⟨i, hi⟩
    rw [hi]
    cases i <;> decide
  · rintro ⟨h1, h4⟩
    obtain h | h | h | h : w.toNat = 1 ∨ w.toNat = 2 ∨ w.toNat = 3 ∨ w.toNat = 4 := by omega
    · exact ⟨.ser, h⟩
    · exact ⟨.des, h⟩
    · exact ⟨.emb, h⟩
    · exact ⟨.ext, h⟩

/-- R84: the illegal words by their two fields, RES (`w / 16`) and OPC (`w % 16`). -/
theorem decodeWord_error_iff_fields (w : Word) : (∃ e, decodeWord w = .error e) ↔
    (w.extractLsb' 4 28 ≠ 0 ∨ w.extractLsb' 0 4 = 0 ∨ 5 ≤ (w.extractLsb' 0 4).toNat) := by
  have hw := w.isLt
  have hres : (w.extractLsb' 4 28).toNat = w.toNat / 16 := by
    simp only [BitVec.extractLsb'_toNat, Nat.shiftRight_eq_div_pow]
    omega
  have hopc : (w.extractLsb' 0 4).toNat = w.toNat % 16 := by simp
  rw [decodeWord_error_iff, ← not_exists, exists_encode_iff]
  simp only [ne_eq, ← BitVec.toNat_inj, hres, hopc, BitVec.ofNat_eq_ofNat, BitVec.toNat_ofNat]
  omega

/-- The ENGINE's step ends an illegal word with IllegalCommand (R84, 60_exceptions.md R181). -/
theorem engineStep_illegal {s : State} {e : DecodeError} (h : decodeWord s.pending = .error e) :
    engineStep s = .next (raise .illegalCommand s) := by
  simp [engineStep, fetchWord, execute, h]

/-- Settles O6: `decodeWord_error_iff_fields`, and for such a word the CMD write (`memWrite_register`) and then
`engineStep_illegal`. -/
theorem illegalWordsEndInIllegalCommand : Obligations.IllegalWordsEndInIllegalCommand := by
  refine ⟨decodeWord_error_iff_fields, fun w s ⟨e, he⟩ => ⟨memWrite_register s w .cmd, rfl, ?_⟩⟩
  exact ⟨Status.started.raised .illegalCommand, engineStep_illegal (s := startCommand w s) he, by decide⟩

end Sys2Proof.Machine
end

section
/-! The host program: its turn, its control statements and its bus statements; the statements of the family 30_encoding.md about
its section 3, R87 to R89 and R94. -/

namespace Sys2Proof.Machine

/-! ### The turn -/

/-- On the host program's turn the step runs the next statement, from the line it stands on (R87, log 6). -/
theorem step_of_hostTurn {s : State} {ins : List Input} {k : Nat} {st : Stmt} (hc : s.cfg.Legal) (ht : HostTurn s ins)
    (hn : NextStmt s.host k st) :
    step s = runStmt st { s with inputs := ins, host := { s.host with pc := k } } := by
  obtain ⟨hheld, hstop, hturn⟩ := ht
  have hmove : step s = hostMove { s with inputs := ins } := by
    rcases hturn with ⟨hi, hb, hins⟩ | hi
    · obtain rfl : ins = s.inputs := hins.trans hi.symm
      show step s = hostMove s
      simp [step_legal hc, turn, hi, hb, hheld]
    · simp [step_legal hc, turn, hi, hheld]
  simp [hmove, hostMove, hstop, (firstStmt_iff s.host k st).mpr hn]

/-! ### Control statements (R89) -/

/-- A branch goes to the line its label stands on. -/
theorem branchTo_of_labelAt {s : State} {l : Label} {j : Nat} (h : LabelAt s.host.program l j) :
    branchTo l s = .next { s with host := { s.host with pc := j } } := by
  simp [branchTo, labelIndex_of_labelAt h]

/-- A conditional branch goes there when its condition holds, and else to the next line. -/
theorem branchIf_of_labelAt {s : State} {l : Label} {j : Nat} (c : Bool) (h : LabelAt s.host.program l j) :
    branchIf c l s = .next { s with host := { s.host with pc := if c then j else s.host.pc + 1 } } := by
  cases c
  · rfl
  · exact branchTo_of_labelAt h

/-- Settles O51: `step_of_hostTurn` and what a branch does (`branchIf_of_labelAt`, `branchTo_of_labelAt`); BCLR is BSET on the
other value of the bit. -/
theorem hostControlStatementsStayInTheHost : Obligations.HostControlStatementsStayInTheHost := by
  intro s ins k st hc ht hn
  rw [step_of_hostTurn hc ht hn]
  refine ⟨?_, ?_, ?_, ?_⟩
  · rintro r b l j rfl hl
    exact branchIf_of_labelAt _ hl
  · rintro r b l j rfl hl
    refine (branchIf_of_labelAt (s := { s with inputs := ins, host := { s.host with pc := k } })
      (!s.host.regs[r.val].getLsbD b.val) hl).trans ?_
    cases s.host.regs[r.val].getLsbD b.val <;> rfl
  · rintro l j rfl hl
    exact branchTo_of_labelAt hl
  · rintro rfl
    rfl

/-! ### The host program is no part of what the port answers from (10_state.md R37) -/

theorem memRead_outside (s : State) (ins : List Input) (hst : HostState) (a : Word) :
    memRead { s with inputs := ins, host := hst } a = memRead s a := rfl

theorem memWrite_outside (s : State) (ins : List Input) (hst : HostState) (a v : Word) :
    memWrite { s with inputs := ins, host := hst } a v =
      (memWrite s a v).map fun t => { t with inputs := ins, host := hst } := by
  have hreg : ∀ r, writeRegister { s with inputs := ins, host := hst } v r =
      (writeRegister s v r).map fun t => { t with inputs := ins, host := hst } := fun r => by cases r <;> rfl
  have hwin : ∀ w off, windowWrite { s with inputs := ins, host := hst } w off v =
      (windowWrite s w off v).map fun t => { t with inputs := ins, host := hst } := fun w off => by
    simp only [windowWrite]
    split_ifs <;> rfl
  simp only [memWrite, hreg, hwin]
  split <;> rw [Option.map_bind] <;> rfl

theorem respond_outside (tx : BusTx) (s : State) (ins : List Input) (hst : HostState) :
    respond tx { s with inputs := ins, host := hst } =
      ((respond tx s).1, { (respond tx s).2 with inputs := ins, host := hst }) := by
  by_cases hw : tx.wellFormed = true
  · obtain ⟨kind, a, n⟩ := tx
    cases kind with
    | read =>
      simp only [respond, hw, if_true, memRead_outside]
      cases memRead s a <;> rfl
    | write v =>
      simp only [respond, hw, if_true, memWrite_outside]
      cases memWrite s a v <;> rfl
  · rw [respond_malformed _ (by simpa using hw), respond_malformed _ (by simpa using hw)]
    rfl

/-! ### Bus statements (R88, R94) -/

/-- The register a bus statement loads: RD's, and none for a write (R88). -/
def stmtDst : Stmt → Option Reg
  | .rd _ r => some r
  | .wr _ _ => none
  | .cmd _ => none
  | .bset _ _ _ => none
  | .bclr _ _ _ => none
  | .jmp _ => none
  | .halt => none

/-- A bus statement issues its transaction (R88, R94). -/
theorem runStmt_of_stmtTx {st : Stmt} {tx : BusTx} (s : State) (h : stmtTx st = some tx) :
    runStmt st s = .next (issue ⟨tx, .program (stmtDst st)⟩ s) := by
  cases st with
  | cmd i =>
    obtain rfl := Option.some.inj h
    rw [runStmt, encode_eq_commandWord]
    rfl
  | wr a v => obtain rfl := Option.some.inj h; rfl
  | rd a r => obtain rfl := Option.some.inj h; rfl
  | bset r b l => cases h
  | bclr r b l => cases h
  | jmp l => cases h
  | halt => cases h

theorem size_of_stmtTx {st : Stmt} {tx : BusTx} (h : stmtTx st = some tx) : tx.size = 4 := by
  cases st <;> cases h <;> rfl

/-- While idle nothing is held, and what is malformed never is (R62). -/
theorem isHeld_eq_false {s : State} {tx : BusTx} (h : s.status.busy = false ∨ tx.addr.toNat % 4 ≠ 0) :
    isHeld tx s = false := by
  rcases h with hb | ha
  · exact isHeld_of_idle hb tx
  · have hw : tx.wellFormed = false := by rw [Bool.eq_false_iff, ne_eq, wellFormed_iff]; exact fun h => ha h.2
    simp [isHeld, hw]

/-- STATUS is read also while the ENGINE is busy (R62). -/
theorem isHeld_statusRead (s : State) : isHeld ⟨.read, 0x004, 4⟩ s = false := by
  simp [isHeld, RegName.offset]

section
variable {s : State} {ins : List Input} {k : Nat} {st : Stmt} {tx : BusTx}
  (hc : s.cfg.Legal) (ht : HostTurn s ins) (hn : NextStmt s.host k st) (htx : stmtTx st = some tx)
include hc ht hn htx

/-- A bus statement whose transaction is not held: the block is what the response leaves, and the host program takes it. -/
theorem step_of_answered {r : Response} {u : State} (hh : isHeld tx s = false) (hr : respond tx s = (r, u)) :
    step s = .next { u with
      inputs := ins, response := some r,
      host := HostState.receive { s.host with pc := k } (stmtDst st) r } := by
  rw [step_of_hostTurn hc ht hn, runStmt_of_stmtTx _ htx, issue_not_held hh, answer_eq, respond_outside, hr]
  rfl

/-- A bus statement that gets `ERROR`: the block is as it was, the model's counter apart (R59). -/
theorem step_of_busError (hh : s.status.busy = false ∨ tx.addr.toNat % 4 ≠ 0) (hbad : BadTransaction s.cfg tx) :
    ∃ v d, step s = .next { s with
      inputs := ins, draws := d, response := some (.error v),
      host := HostState.receive { s.host with pc := k } (stmtDst st) (.error v) } := by
  obtain ⟨hiff, hsame⟩ := badTransactionsGetErrorAndChangeNothing tx s
  obtain ⟨v, hv⟩ := hiff.mp hbad
  obtain ⟨d, hd⟩ := hsame hbad
  exact ⟨v, d, step_of_answered hc ht hn htx (isHeld_eq_false hh) (Prod.ext hv hd)⟩

/-- A bus statement that is held waits on its line (R62). -/
theorem step_of_stmt_held (hh : isHeld tx s = true) :
    step s = .next { s with
      inputs := ins, held := some ⟨tx, .program (stmtDst st)⟩, host := { s.host with pc := k } } := by
  rw [step_of_hostTurn hc ht hn, runStmt_of_stmtTx _ htx, issue_held hh]
end

/-- Settles O50: an answered transaction by `step_of_answered`, an `ERROR` by `step_of_busError`, a held one by
`step_of_stmt_held`. -/
theorem hostBusStatementsAreBusTransactions : Obligations.HostBusStatementsAreBusTransactions := by
  intro s ins k st hc ht hn
  refine ⟨?_, ?_, ?_, ?_, ?_, ?_⟩
  · rintro a r v u rfl ha hr
    refine step_of_answered hc ht hn rfl ?_ hr
    rcases ha with hb | rfl
    · exact isHeld_of_idle hb _
    · exact isHeld_statusRead s
  · rintro a v u rfl hb hr
    exact step_of_answered hc ht hn rfl (isHeld_of_idle hb _) hr
  · rintro i rfl hb
    exact ⟨Status.started, by decide,
      step_of_answered hc ht hn rfl (isHeld_of_idle hb _) (respond_register_write (r := .cmd) rfl)⟩
  · rintro a r rfl ha hbad
    exact step_of_busError hc ht hn rfl ha hbad
  · rintro a w rfl ha hbad
    exact step_of_busError hc ht hn rfl ha hbad
  · intro tx htx hb ha hs
    have hw : tx.wellFormed = true := (wellFormed_iff tx).mpr ⟨size_of_stmtTx htx, ha⟩
    exact ⟨stmtDst st, fun a r h => h ▸ rfl, step_of_stmt_held hc ht hn htx (isHeld_of_busy hb hw hs)⟩

end Sys2Proof.Machine
end

section
/-! Well-formed host programs, and the programs ENCODE and DECODE make; the statements of the family 30_encoding.md about its
section 3, R87 and R90 to R93. -/

namespace Sys2Proof.Machine

/-! ### What well-formedness says of the lines -/

theorem programWellFormed_iff {p : List Line} : programWellFormed p = true ↔
    (labelsOf p).Nodup ∧ ∀ ln ∈ p, ∀ l ∈ ln.targets, l ∈ labelsOf p := by
  simp [programWellFormed]

/-- Only BSET, BCLR and JMP branch, each to its one label (R89). -/
theorem Line.mem_targets_iff {ln : Line} {l : Label} : l ∈ ln.targets ↔
    (∃ r b, ln = .stmt (.bset r b l)) ∨ (∃ r b, ln = .stmt (.bclr r b l)) ∨ ln = .stmt (.jmp l) := by
  cases ln with
  | label l' => simp [Line.targets]
  | stmt st => cases st <;> simp [Line.targets, Stmt.targets, eq_comm]

/-- Settles O53: `labelsOf_nodup` for the labels, and for the branches `Line.mem_targets_iff` at each line. -/
theorem wellFormedProgramsDefineEachLabelOnce : Obligations.WellFormedProgramsDefineEachLabelOnce := by
  intro p
  rw [programWellFormed_iff, labelsOf_nodup]
  refine and_congr_right fun _ => ?_
  simp only [mem_labelsOf, Line.mem_targets_iff]
  constructor
  · rintro h i l (⟨r, b, hi⟩ | ⟨r, b, hi⟩ | hi)
    · exact h _ (List.mem_of_getElem? hi) l (.inl ⟨r, b, rfl⟩)
    · exact h _ (List.mem_of_getElem? hi) l (.inr (.inl ⟨r, b, rfl⟩))
    · exact h _ (List.mem_of_getElem? hi) l (.inr (.inr rfl))
  · intro h ln hln l hl
    obtain ⟨i, hi⟩ := List.mem_iff_getElem?.mp hln
    rcases hl with ⟨r, b, rfl⟩ | ⟨r, b, rfl⟩ | rfl
    · exact h i l (.inl ⟨r, b, hi⟩)
    · exact h i l (.inr (.inl ⟨r, b, hi⟩))
    · exact h i l (.inr (.inr hi))

/-! ### Joining programs -/

theorem labelsOf_append (p q : List Line) : labelsOf (p ++ q) = labelsOf p ++ labelsOf q := by
  induction p with
  | nil => rfl
  | cons x p ih => cases x <;> simp [labelsOf, ih]

/-- Two well-formed programs with no label in common make one. -/
theorem programWellFormed_append {p q : List Line} (hp : programWellFormed p = true) (hq : programWellFormed q = true)
    (hd : (labelsOf p).Disjoint (labelsOf q)) : programWellFormed (p ++ q) = true := by
  rw [programWellFormed_iff] at hp hq ⊢
  obtain ⟨hp1, hp2⟩ := hp
  obtain ⟨hq1, hq2⟩ := hq
  rw [labelsOf_append]
  refine ⟨List.nodup_append'.mpr ⟨hp1, hq1, hd⟩, fun ln hln l hl => ?_⟩
  rcases List.mem_append.mp hln with h | h
  · exact List.mem_append_left _ (hp2 ln h l hl)
  · exact List.mem_append_right _ (hq2 ln h l hl)

/-! ### ENCODE and DECODE (R93) -/

theorem labelsOf_encodeLines (k : Nat) (r : Reg) :
    labelsOf (encodeLines k r) = [.poll (2 * k), .poll (2 * k + 1), .encDone k] := rfl

theorem labelsOf_decodeLines (k : Nat) (r : Reg) :
    labelsOf (decodeLines k r) = [.poll (2 * k), .poll (2 * k + 1), .decDone k] := rfl

theorem encodeLines_wellFormed (k : Nat) (r : Reg) : programWellFormed (encodeLines k r) = true := by
  rw [programWellFormed_iff, labelsOf_encodeLines]
  simp [encodeLines, runLines, pollLines, checkLines, Line.targets, Stmt.targets]

theorem decodeLines_wellFormed (k : Nat) (r : Reg) : programWellFormed (decodeLines k r) = true := by
  rw [programWellFormed_iff, labelsOf_decodeLines]
  simp [decodeLines, runLines, pollLines, checkLines, Line.targets, Stmt.targets]

/-- Two uses with different numbers have different poll labels, so only their closing labels `a` and `b` could meet. -/
theorem useLabels_disjoint {k j : Nat} {a b : Label} (hkj : k ≠ j) (hab : a ≠ b) (ha : ∀ n, a ≠ .poll n)
    (hb : ∀ n, .poll n ≠ b) :
    List.Disjoint [.poll (2 * k), .poll (2 * k + 1), a] [.poll (2 * j), .poll (2 * j + 1), b] := by
  simp only [List.disjoint_cons_left, List.disjoint_nil_left, List.mem_cons, List.not_mem_nil, Label.poll.injEq, hab, ha,
    hb, or_false, not_or, not_false_eq_true, and_true]
  omega

/-- HALT defines no label and branches nowhere, so it may end any well-formed program. -/
theorem programWellFormed_halt {p : List Line} (hp : programWellFormed p = true) :
    programWellFormed (p ++ [.stmt .halt]) = true :=
  programWellFormed_append hp (by decide) (List.disjoint_nil_right _)

/-- Settles O52: the lines by evaluation; a program of two uses is well formed as its parts are (`programWellFormed_append`),
for different numbers make different labels (`useLabels_disjoint`). -/
theorem encodeAndDecodeExpandToWellFormedPrograms : Obligations.EncodeAndDecodeExpandToWellFormedPrograms := by
  refine ⟨fun _ _ => rfl, fun _ _ _ => rfl, fun _ _ => rfl, fun k r => ⟨2 * k, 2 * k + 1, by omega, rfl⟩,
    fun k r => ⟨2 * k, 2 * k + 1, by omega, rfl⟩, fun k j r q hkj => ⟨?_, ?_, ?_⟩⟩
  · exact programWellFormed_halt (programWellFormed_append (encodeLines_wellFormed k r) (decodeLines_wellFormed j q)
      (useLabels_disjoint hkj nofun nofun nofun))
  · exact programWellFormed_halt (programWellFormed_append (encodeLines_wellFormed k r) (encodeLines_wellFormed j q)
      (useLabels_disjoint hkj (by simpa using hkj) nofun nofun))
  · exact programWellFormed_halt (programWellFormed_append (decodeLines_wellFormed k r) (decodeLines_wellFormed j q)
      (useLabels_disjoint hkj (by simpa using hkj) nofun nofun))

end Sys2Proof.Machine
end

section
/-! The life of a command: the CMD write that starts it, the step that runs it and the STATUS it ends with; the statements of
the family 40_command_control.md. -/

namespace Sys2Proof.Machine

/-! ### The end of a command -/

/-- Settles O8: the end and the port by `engineStep_ends`, the rest by what the step answers (`engineStep_next`): a raise, or
a completion within the command's frame. -/
theorem engineStepAlwaysEndsTheCommand : Obligations.EngineStepAlwaysEndsTheCommand := by
  intro s
  obtain ⟨t, ht, hbusy, hheld, hresp⟩ := engineStep_ends s
  rcases engineStep_next ht with ⟨e, rfl⟩ | ⟨i, -, -, hf, found, hst⟩
  · exact ⟨_, ht, rfl, rfl, rfl, rfl, rfl, rfl, rfl, rfl⟩
  · have hdone : t.status.done = true := by
      rcases hst with h | h <;> rw [h, Status.completed_done]
    exact ⟨t, ht, hbusy, hdone, hf.pending, hf.cfg, hheld, hresp, hf.host, hf.inputs⟩

/-- STATUS after a successful SER, EMB or EXT (R106). -/
theorem Status.started_completed_toWord : Status.started.completed.toWord = 0x2 := by decide

/-- STATUS after a successful DES of `n` bits: TERM_FOUND, or TRUNC, or neither (R106, 41_bitstream_codec.md R130, R131). -/
theorem Status.started_decoded_toWord (found : Bool) (n : Nat) :
    (Status.started.decoded found n).completed.toWord = if found then 0x102 else if n % 8 = 0 then 0x2 else 0x202 := by
  cases found with
  | true =>
    simp only [Status.decoded, Bool.not_true, Bool.false_and]
    rfl
  | false =>
    by_cases h : n % 8 = 0
    · simp only [Status.decoded, h]
      rfl
    · simp only [Status.decoded, ne_eq, h, not_false_eq_true, decide_true]
      rfl

/-- A command that ends with ERR = 0 did not raise: of the two outcomes of `exec_cases`, it is the completion. -/
theorem exec_status_of_success {i : Instr} {s t : State} (h : exec i s = .next t) (herr : t.status.err = false) :
    (i ≠ .des → t.status = s.status.completed) ∧
    (i = .des → ∃ found, t.status = (s.status.decoded found s.bitLen.toNat).completed) := by
  rcases exec_cases i s with ⟨e, he⟩ | ⟨u, hu, -, hst⟩
  · obtain rfl := Host.Outcome.next.inj (h.symm.trans he)
    cases herr
  · obtain rfl := Host.Outcome.next.inj (h.symm.trans hu)
    exact hst

/-- Settles O10: `complete` by definition, and the STATUS of a success (`exec_status_of_success`) as a word. -/
theorem successfulCommandLeavesStatusTwo : Obligations.SuccessfulCommandLeavesStatusTwo := by
  refine ⟨fun _ => rfl, fun i s t hrun hx herr => ?_⟩
  obtain ⟨hne, hdes⟩ := exec_status_of_success hx herr
  refine ⟨fun hi => ?_, fun hi => ?_⟩
  · rw [hne hi, hrun, Status.started_completed_toWord]
  · obtain ⟨found, hst⟩ := hdes hi
    rw [hst, hrun, Status.started_decoded_toWord]
    split_ifs <;> simp

/-! ### The step that runs a command -/

/-- It is the block's turn, and `ins` is what is left of the inputs after it: no input is left while a command runs, the
block's turn comes next, or the host's transaction is held (log 6). -/
abbrev BlockTurn (s : State) (ins : List Input) : Prop :=
  s.inputs = [] ∧ ins = [] ∨ s.inputs = .blockTurn :: ins ∨
    (s.held.isSome = true ∧ ins = s.inputs ∧ ∃ x rest, s.inputs = x :: rest ∧ x ≠ .reset ∧ x ≠ .blockTurn)

/-- On the block's turn, a step of a busy block is the ENGINE's step (R104, log 6). -/
theorem step_of_blockTurn {s : State} {ins : List Input} (hc : s.cfg.Legal) (hb : s.status.busy = true)
    (ht : BlockTurn s ins) : step s = engineStep { s with inputs := ins } := by
  rcases ht with ⟨hi, rfl⟩ | hi | ⟨hheld, rfl, x, rest, hi, hreset, hblock⟩
  · have hs : { s with inputs := [] } = s := by rw [← hi]
    simp [step_legal hc, turn, blockMove, hi, hb, hs]
  · simp [step_legal hc, turn, blockMove, hi, hb]
  · obtain ⟨h, hh⟩ := Option.isSome_iff_exists.mp hheld
    obtain ⟨ins', hins, hstep⟩ := step_of_held hc hh fun _ he => hreset (List.cons.inj (hi.symm.trans he)).1
    have hsame : ins' = s.inputs := hins.resolve_right fun he => hblock (List.cons.inj (hi.symm.trans he)).1
    rw [hstep, hsame, blockMove, if_pos hb]

/-- The lanes of a word decode as the word. -/
theorem decode_bytesOfWord (w : Word) : decode (bytesOfWord w) = (decodeWord w).map (·, []) := by
  rw [← decode_bytesOfWord_append, List.append_nil]

/-- The ENGINE's step is `exec` of the command that PENDING names (R105). -/
theorem engineStep_legal {s : State} {i : Instr} (h : decodeWord s.pending = .ok i) : engineStep s = exec i s := by
  simp [engineStep, fetchWord, execute, h]

/-- Settles O7: `step_of_blockTurn`, and then `engineStep_legal` or `engineStep_illegal`. -/
theorem stepRunsThePendingCommand : Obligations.StepRunsThePendingCommand := by
  intro s hc hb ins ht
  rw [step_of_blockTurn hc hb ht, decode_bytesOfWord]
  cases hd : decodeWord s.pending with
  | ok j =>
    refine ⟨fun i hi _ => ?_, nofun⟩
    cases hi
    exact engineStep_legal hd
  | error e => exact ⟨nofun, fun _ _ => engineStep_illegal hd⟩

/-! ### The start of a command -/

/-- STATUS after an accepted CMD write (R102). -/
theorem Status.started_toWord : Status.started.toWord = 0x1 := by decide

/-- A CMD write that an idle block is issued starts the command and is answered OKAY (R100, R102). -/
theorem issue_cmdWrite {s : State} (hb : s.status.busy = false) (w : Word) :
    issue ⟨⟨.write w, 0x000, 4⟩, .stream⟩ s = { startCommand w s with response := some .okayWrite } := by
  have hw : respond ⟨.write w, 0x000, 4⟩ s = (.okayWrite, startCommand w s) := respond_register_write (r := .cmd) rfl
  rw [issue_not_held (isHeld_of_idle hb _), answer_eq, hw]
  rfl

/-- Settles O9: the step issues the write (`step_issue`), which starts the command (`issue_cmdWrite`). -/
theorem cmdWriteLatchesTheWordAndSetsBusy : Obligations.CmdWriteLatchesTheWordAndSetsBusy := fun s w rest hc hb hn hi =>
  ⟨Status.started, Status.started_toWord,
    (step_issue hc hn hi).trans (congrArg _ (issue_cmdWrite (s := { s with inputs := rest }) hb w))⟩

end Sys2Proof.Machine
end

section
/-! The bitstream codec: what SER leaves in BIT, where DES stops and what it leaves in TXT, and the message that comes back from
the two together; the statements of the family 41_bitstream_codec.md. -/

namespace Sys2Proof.Machine

/-! ### Where "####" stands -/

@[simp] theorem hashes_length : hashes.length = 4 := rfl

theorem hashes_getElem? (j : Nat) : hashes[j]? = if j < 4 then some 0x23 else none :=
  List.getElem?_replicate (n := 4)

/-- `"####"` stands at `q` exactly when the four characters from `q` on are `#` (00_scope.md R8). -/
theorem hashesAt_iff {cs : List Byte} {q : Nat} : HashesAt cs q ↔ ∀ j, j < 4 → cs[q + j]? = some 0x23 := by
  refine ⟨fun h j hj => ?_, fun h => List.ext_getElem? fun j => ?_⟩
  · rw [← List.getElem?_drop, ← List.getElem?_take_of_lt hj, h, hashes_getElem?, if_pos hj]
  · rw [List.getElem?_take, List.getElem?_drop, hashes_getElem?]
    split
    · next hj => exact h j hj
    · rfl

theorem HashesAt.le_length {cs : List Byte} {q : Nat} (h : HashesAt cs q) : q + 4 ≤ cs.length := by
  obtain ⟨hlt, -⟩ := List.getElem?_eq_some_iff.mp (hashesAt_iff.mp h 3 (by omega))
  omega

/-- DES's check (R129), on the characters decoded so far, says that `"####"` ends there. -/
theorem endsWithTerminator_take_iff {cs : List Byte} {n : Nat} (hn : n ≤ cs.length) :
    endsWithTerminator (cs.take n) = true ↔ ∃ q, n = q + 4 ∧ HashesAt cs q := by
  rw [endsWithTerminator_iff, List.length_take, Nat.min_eq_left hn, List.drop_take]
  constructor
  · rintro ⟨h4, h⟩
    rw [Nat.sub_sub_self h4] at h
    exact ⟨n - 4, (Nat.sub_add_cancel h4).symm, h⟩
  · rintro ⟨q, rfl, h⟩
    rw [Nat.add_sub_cancel, Nat.add_sub_cancel_left]
    exact ⟨Nat.le_add_left .., h⟩

theorem exists_firstHashes {cs : List Byte} {n : Nat} (h : HashesAt cs n) : ∃ q, q ≤ n ∧ FirstHashes cs q :=
  have hex : ∃ q, HashesAt cs q := ⟨n, h⟩
  ⟨Nat.find hex, Nat.find_min' hex h, Nat.find_spec hex, fun _ => Nat.find_min hex⟩

section
variable {m : List Byte}

/-- In a message with its terminator, the characters from the message's end on are the terminator's. -/
theorem append_hashes_getElem? {k : Nat} (h1 : m.length ≤ k) (h2 : k < m.length + 4) :
    (m ++ hashes)[k]? = some 0x23 := by
  rw [List.getElem?_append_right h1, hashes_getElem?, if_pos (by omega)]

theorem hashesAt_append_hashes : HashesAt (m ++ hashes) m.length :=
  hashesAt_iff.mpr fun _ hj => append_hashes_getElem? (Nat.le_add_right ..) (by omega)

/-- `"####"` within the message is `"####"` of the message with its terminator. -/
theorem hashesAt_append_iff {p : Nat} (hp : p + 4 ≤ m.length) : HashesAt (m ++ hashes) p ↔ HashesAt m p := by
  simp only [hashesAt_iff]
  exact forall₂_congr fun j hj => by rw [List.getElem?_append_left (by omega)]

/-- `"####"` that begins in the message and ends in the terminator makes the message end with `#`, and the other way round: a
final `#` begins such a `"####"` (R135). -/
theorem getLast?_eq_hash_iff : m.getLast? = some 0x23 ↔
    ∃ p, p < m.length ∧ m.length < p + 4 ∧ HashesAt (m ++ hashes) p := by
  rw [List.getLast?_eq_getElem?]
  constructor
  · intro h
    obtain ⟨hlt, -⟩ := List.getElem?_eq_some_iff.mp h
    refine ⟨m.length - 1, hlt, by omega, hashesAt_iff.mpr fun j hj => ?_⟩
    cases j with
    | zero => rwa [Nat.add_zero, List.getElem?_append_left hlt]
    | succ j => exact append_hashes_getElem? (by omega) (by omega)
  · rintro ⟨p, hp, hlt, h⟩
    have hlast := hashesAt_iff.mp h (m.length - 1 - p) (by omega)
    rwa [show p + (m.length - 1 - p) = m.length - 1 by omega, List.getElem?_append_left (by omega)] at hlast

/-- The first `"####"` is the terminator itself exactly when the message holds none and does not end with `#` (R135). -/
theorem firstHashes_eq_length_iff {q : Nat} (hq : q ≤ m.length) (h : FirstHashes (m ++ hashes) q) :
    q = m.length ↔ (∀ p, ¬ HashesAt m p) ∧ m.getLast? ≠ some 0x23 := by
  obtain ⟨hat, hmin⟩ := h
  constructor
  · rintro rfl
    refine ⟨fun p hp => ?_, fun hlast => ?_⟩
    · have hle := hp.le_length
      exact hmin p (by omega) ((hashesAt_append_iff hle).mpr hp)
    · obtain ⟨p, hp, -, hpat⟩ := getLast?_eq_hash_iff.mp hlast
      exact hmin p hp hpat
  · rintro ⟨hno, hlast⟩
    by_contra hne
    rcases Nat.lt_or_ge m.length (q + 4) with hlt | hge
    · exact hlast (getLast?_eq_hash_iff.mpr ⟨q, by omega, hlt, hat⟩)
    · exact hno q ((hashesAt_append_iff hge).mp hat)
end

/-! ### LengthRange -/

/-- STATUS after a LengthRange (60_exceptions.md R184). -/
theorem Status.started_raised_lengthRange_toWord : (Status.started.raised .lengthRange).toWord = 0x26 := by decide

/-- Settles O14: `execSer_out`. -/
theorem serRaisesLengthRange : Obligations.SerRaisesLengthRange := fun s hrun h =>
  ⟨s.status.raised .lengthRange, execSer_out h, by rw [hrun, Status.started_raised_lengthRange_toWord]⟩

/-- Settles O17: `execDes_out`. -/
theorem desRaisesLengthRange : Obligations.DesRaisesLengthRange := fun s hrun h =>
  ⟨s.status.raised .lengthRange, execDes_out h, by rw [hrun, Status.started_raised_lengthRange_toWord]⟩

/-! ### SER -/

/-- What SER leaves when it completes: BIT holds the bitstream of the message and the terminator (R122, R123). -/
theorem execSer_spec {s : State} (hc : s.cfg.Legal) (h : s.msgLen.toNat ≤ s.cfg.msgCap) :
    ∃ (t : State) (m : List Byte), exec .ser s = .next t ∧ m.length = s.msgLen.toNat ∧ ReadsAs s.mem.msg m ∧
      (∀ i, i < 8 * (m.length + 4) → t.mem.bit.read? i = (bitstreamOf (m ++ hashes))[i]?) ∧
      t.bitLen.toNat = 8 * (m.length + 4) ∧ t.cfg = s.cfg ∧ t.status = s.status.completed := by
  obtain ⟨m, hm, hlen, hreads⟩ := messageWithTerminator_spec s
  refine ⟨_, m, execSer_in h, hlen, hreads, fun i hi => ?_, ?_, rfl, rfl⟩
  · rw [hm, complete_mem, ← Buffer.read?_writeFrom_inside s.mem.bit (i := 0), Nat.zero_add]
    · rfl
    · rw [bitstreamOf_length, List.length_append]
      exact hi
  · obtain ⟨-, -, -, hmsg, -⟩ := hc
    rw [complete_bitLen, BitVec.toNat_ofNat, hlen, Nat.mod_eq_of_lt (by omega)]

/-- A byte of BIT all of whose bits are written, and are those of the character `ch`, reads as `ch`, whatever free values its
read might draw (10_state.md R33). -/
theorem readLane_bit_eq {c : Config} {m : Memory} {k : Nat} {ch : Byte} (hk : 8 * (k + 1) ≤ c.bitCap)
    (h : ∀ b, b < 8 → m.bit.read? (8 * k + b) = some (ch.getLsbD (7 - b))) (d : Nat) :
    (readLane c m .bit k d).1 = ch := by
  refine BitVec.eq_of_getLsbD_eq fun i hi => ?_
  have hbit := readLane_bit_written (c := c) (d := d) (b := 7 - i) (by omega) (by omega) (h (7 - i) (by omega))
  rwa [show 7 - (7 - i) = i by omega] at hbit

/-- Settles O12: `execSer_spec`, the bitstream bit by bit (`bitstreamOf_getElem?`) and byte by byte (`readLane_bit_eq`). -/
theorem serWritesMessageAndTerminator : Obligations.SerWritesMessageAndTerminator := by
  intro s hc hrun hle
  obtain ⟨t, m, ht, hlen, hreads, hbit, hbitLen, hcfg, hst⟩ := execSer_spec hc hle
  have hbits : ∀ k b, k < m.length + 4 → b < 8 →
      t.mem.bit.read? (8 * k + b) = (m ++ hashes)[k]?.map fun c => c.getLsbD (7 - b) := fun k b hk hb => by
    rw [hbit _ (by omega), bitstreamOf_getElem? _ hb]
  refine ⟨t, m, ht, hlen, hreads, hbits, fun k d hk => ?_, hbitLen, ?_⟩
  · obtain ⟨ch, hget⟩ : ∃ ch, (m ++ hashes)[k]? = some ch := ⟨_, List.getElem?_eq_getElem (by simpa using hk)⟩
    have hcap : 8 * (k + 1) ≤ t.cfg.bitCap := by rw [hcfg]; omega
    rw [hget, readLane_bit_eq hcap fun b hb => by rw [hbits k b hk hb, hget, Option.map_some]]
  · rw [hst, hrun, Status.started_completed_toWord]

/-- Settles O13: a raise writes STATUS alone; a completion writes the `8 * (MSG_LEN + 4)` bits of the bitstream. -/
theorem serChangesNothingElse : Obligations.SerChangesNothingElse := by
  intro s t h
  rcases Nat.lt_or_ge s.cfg.msgCap s.msgLen.toNat with hl | hl
  · obtain rfl := Host.Outcome.next.inj ((execSer_out hl).symm.trans h)
    exact ⟨fun _ _ => rfl, by simp⟩
  · obtain rfl := Host.Outcome.next.inj ((execSer_in hl).symm.trans h)
    obtain ⟨m, hm, hlen, -⟩ := messageWithTerminator_spec s
    refine ⟨fun i hi => Buffer.read?_writeFrom_outside _ (.inr ?_), by simp⟩
    rw [hm, bitstreamOf_length, List.length_append, hlen, terminator_length]
    omega

/-! ### DES -/

/-- What the decode loop gives from the first group on (R128 to R131): characters with the written bits of their groups, that end
with the first `"####"` when it was found, and that are all the full groups, without a `"####"`, when it was not. -/
theorem decodedCharacters_spec (s : State) :
    (∀ k b x, k < s.decodedCharacters.1.length → b < 8 → s.mem.bit.read? (8 * k + b) = some x →
      s.decodedCharacters.1[k]?.map (fun c => c.getLsbD (7 - b)) = some x) ∧
    s.decodedCharacters.1.length ≤ s.bitLen.toNat / 8 ∧
    (s.decodedCharacters.2.1 = true →
      ∃ q, FirstHashes s.decodedCharacters.1 q ∧ s.decodedCharacters.1.length = q + 4) ∧
    (s.decodedCharacters.2.1 = false →
      (∀ q, ¬ HashesAt s.decodedCharacters.1 q) ∧ s.decodedCharacters.1.length = s.bitLen.toNat / 8) := by
  obtain ⟨cs, hcs, hle, hall, hend, hbefore, hbits⟩ := decodeGroups_spec s.mem.bit (s.bitLen.toNat / 8) 0 [] s.draws
  rw [← State.decodedCharacters] at hcs hall hend hbefore
  rw [hcs, List.nil_append]
  simp only [List.nil_append, Nat.zero_add] at hend hbefore hbits
  have hnot : ∀ p, p + 4 ≤ cs.length → (p + 4 < cs.length ∨ s.decodedCharacters.2.1 = false) → ¬ HashesAt cs p :=
    fun p hp hor hat => absurd ((endsWithTerminator_take_iff hp).mpr ⟨p, rfl, hat⟩)
      (by simp [hbefore (p + 3) (by omega) hor])
  refine ⟨fun k b x => hbits k b x, hle, fun hf => ?_, fun hf => ⟨fun p hat => ?_, hall hf⟩⟩
  · have hwhole := hend hf
    rw [← List.take_length (l := cs), endsWithTerminator_take_iff (Nat.le_refl _)] at hwhole
    obtain ⟨q, hq, hat⟩ := hwhole
    exact ⟨q, ⟨hat, fun p hp => hnot p (by omega) (.inl (by omega))⟩, hq⟩
  · exact hnot p hat.le_length (.inr hf) hat

/-- What DES leaves when it completes, by the characters it decodes (R130 to R133). -/
theorem execDes_spec {s : State} (h : s.bitLen.toNat ≤ s.cfg.bitCap) :
    ∃ t, exec .des s = .next t ∧ CommandFrame .des s t ∧
      (∀ j, j < s.decodedCharacters.1.length → t.mem.txt.read? j = s.decodedCharacters.1[j]?) ∧
      (∀ j, s.decodedCharacters.1.length ≤ j → t.mem.txt.read? j = s.mem.txt.read? j) ∧
      t.txtLen.toNat = s.decodedCharacters.1.length - (if s.decodedCharacters.2.1 then 4 else 0) ∧
      t.status = (s.status.decoded s.decodedCharacters.2.1 s.bitLen.toNat).completed := by
  refine ⟨_, execDes_in h, by constructor <;> simp, fun j hj => ?_, fun j hj => ?_, ?_, rfl⟩
  · rw [complete_mem, ← Buffer.read?_writeFrom_inside s.mem.txt (i := 0) hj, Nat.zero_add]
  · exact Buffer.read?_writeFrom_outside _ (.inr (by rwa [Nat.zero_add]))
  · obtain ⟨-, hle, -⟩ := decodedCharacters_spec s
    have hlt := s.bitLen.isLt
    rw [complete_txtLen, BitVec.toNat_ofNat]
    split_ifs <;> exact Nat.mod_eq_of_lt (by omega)

/-- Settles O15: `execDes_spec` and `decodedCharacters_spec`, by whether the terminator was found. -/
theorem desDecodesToTheFirstTerminator : Obligations.DesDecodesToTheFirstTerminator := by
  intro s _ hrun hle
  obtain ⟨t, ht, -, hin, -, hlen, hst⟩ := execDes_spec hle
  obtain ⟨hbits, hcount, hfound, hnone⟩ := decodedCharacters_spec s
  rw [hrun] at hst
  refine ⟨t, _, ht, hbits, hin, ?_⟩
  rw [hst, Status.started_decoded_toWord]
  cases hf : s.decodedCharacters.2.1 with
  | true =>
    obtain ⟨q, hq, hK⟩ := hfound hf
    exact .inl ⟨q, hq, hK, hcount, by rw [hlen, hf, if_pos rfl, hK, Nat.add_sub_cancel], rfl⟩
  | false =>
    obtain ⟨hno, hK⟩ := hnone hf
    exact .inr ⟨hno, hK, by rw [hlen, hf, hK]; rfl, rfl⟩

/-- Settles O16: `execDes_spec`; the characters fit TXT by K3 of the configuration (00_scope.md R6). -/
theorem desWritesTheDecodedCharactersOnly : Obligations.DesWritesTheDecodedCharactersOnly := by
  intro s t hc hle h
  obtain ⟨u, hu, hf, hin, hout, hlen, hst⟩ := execDes_spec hle
  obtain rfl := Host.Outcome.next.inj (hu.symm.trans h)
  obtain ⟨-, hcount, hfound, -⟩ := decodedCharacters_spec s
  obtain ⟨-, -, hK3, -⟩ := hc
  have hcap : s.decodedCharacters.1.length ≤ s.cfg.txtCap :=
    (hcount.trans (Nat.div_le_div_right hle)).trans hK3
  obtain ⟨hbit, hbitLen⟩ := hf.bit nofun nofun
  refine ⟨hcount, hcap, hin, hout, hlen, fun hfd => ?_, hf.msg, hf.msgLen, hbit, hbitLen, hf.pix nofun, hf.pixLen,
    hf.pending, hf.cfg, hf.held, hf.response, hf.host, hf.inputs, by simp [hst], by simp [hst]⟩
  obtain ⟨q, ⟨hat, -⟩, hK⟩ := hfound hfd
  rw [hK, Nat.add_sub_cancel]
  exact ⟨Nat.le_add_left .., fun j hj => by rw [hin _ (by omega), hashesAt_iff.mp hat j hj]⟩

/-- Settles O18: the decode loop depends on the bits it decodes alone (`decodeGroups_congr`). -/
theorem desDependsOnlyOnTheGroupsItDecodes : Obligations.DesDependsOnlyOnTheGroupsItDecodes := by
  intro s t bit' hbit h
  rcases Nat.lt_or_ge s.cfg.bitCap s.bitLen.toNat with hl | hl
  · obtain rfl := Host.Outcome.next.inj ((execDes_out hl).symm.trans h)
    exact execDes_out hl
  · obtain rfl := Host.Outcome.next.inj ((execDes_in hl).symm.trans h)
    have hsame : State.decodedCharacters { s with mem := { s.mem with bit := bit' } } = s.decodedCharacters :=
      decodeGroups_congr (a := s.mem.bit) rfl fun i _ hi => (hbit i hi).symm
    have hrun := execDes_in (s := { s with mem := { s.mem with bit := bit' } }) hl
    rw [hsame] at hrun
    exact hrun

/-! ### SER and then DES -/

/-- A command from its CMD write to its end: `exec`, from the state `start_command` leaves (R102, R104). -/
theorem runCommand_commandWord (i : Instr) (s : State) :
    runCommand (commandWord i) s = exec i (startCommand (commandWord i) s) :=
  engineStep_legal (by rw [startCommand_pending, ← encode_eq_commandWord, decodeWord_encode])

/-- From the bitstream of characters in which `"####"` first stands at `q`, DES decodes the characters up to its end. -/
theorem decodedCharacters_of_bitstream {s : State} {cs : List Byte} {q : Nat} (hq : FirstHashes cs q)
    (hlen : s.bitLen.toNat = 8 * cs.length)
    (hbits : ∀ i, i < 8 * cs.length → s.mem.bit.read? i = (bitstreamOf cs)[i]?) :
    s.decodedCharacters = (cs.take (q + 4), true, s.draws) := by
  obtain ⟨hat, hmin⟩ := hq
  have hle := hat.le_length
  refine decodeGroups_written (Nat.succ_pos _) (by omega) hle (fun j hj => ?_) ?_ fun j _ hj => ?_
  · rw [Nat.mul_zero, Nat.zero_add, hbits j (by omega)]
  · rw [List.nil_append, endsWithTerminator_take_iff hle]
    exact ⟨q, rfl, hat⟩
  · rw [List.nil_append, ← Bool.not_eq_true, endsWithTerminator_take_iff (by omega)]
    rintro ⟨p, rfl, hp⟩
    exact hmin p (by omega) hp

/-- DES from a state that holds the bitstream of a message and the terminator (R135). -/
theorem runCommand_des_of_message {a : State} {m : List Byte} (hcap : a.bitLen.toNat ≤ a.cfg.bitCap)
    (hlen : a.bitLen.toNat = 8 * (m.length + 4))
    (hbits : ∀ i, i < 8 * (m.length + 4) → a.mem.bit.read? i = (bitstreamOf (m ++ hashes))[i]?) :
    ∃ u, runCommand (commandWord .des) a = .next u ∧ MessageComesBack m u := by
  obtain ⟨q, hqm, hq⟩ := exists_firstHashes (hashesAt_append_hashes (m := m))
  obtain ⟨u, hu, -, hin, -, htxt, hst⟩ := execDes_spec (s := startCommand (commandWord .des) a) hcap
  rw [decodedCharacters_of_bitstream (s := startCommand (commandWord .des) a) hq (by simpa using hlen)
    (by simpa using hbits)] at hin htxt hst
  have hK : ((m ++ hashes).take (q + 4)).length = q + 4 := by
    rw [List.length_take, List.length_append, hashes_length, Nat.min_eq_left (by omega)]
  rw [hK] at hin htxt
  refine ⟨u, (runCommand_commandWord _ _).trans hu, q, hqm, hq, htxt, fun j hj => ?_, ?_, firstHashes_eq_length_iff hqm hq⟩
  · rw [hin j (by omega), List.getElem?_take_of_lt (by omega), List.getElem?_append_left (by omega)]
  · rw [hst, startCommand_status, Status.started_decoded_toWord, if_pos rfl]

/-- Settles O19: what SER leaves (`execSer_spec`) is what `runCommand_des_of_message` asks for; by K1 of the configuration
(00_scope.md R6) the bitstream is within BIT_CAP. -/
theorem serThenDesReturnsTheMessagePrefix : Obligations.SerThenDesReturnsTheMessagePrefix := by
  intro s hc hle
  obtain ⟨t, m, ht, hlen, hreads, hbit, hbitLen, hcfg, -⟩ :=
    execSer_spec (s := startCommand (commandWord .ser) s) hc hle
  refine ⟨t, m, (runCommand_commandWord _ _).trans ht, hlen, hreads, fun a hacfg habit habitLen => ?_⟩
  obtain ⟨hK1, -⟩ := hc
  rw [startCommand_msgLen] at hlen
  rw [← habit] at hbit
  rw [← habitLen] at hbitLen
  exact runCommand_des_of_message (by rw [hbitLen, hacfg, hcfg, startCommand_cfg]; omega) hbitLen hbit

end Sys2Proof.Machine
end

section
/-! The channel embedder: what EMB leaves in PIX and EXT in BIT, and the path of a message from SER through the carriers back to
DES; the statements of the family 42_channel_embedder.md. -/

namespace Sys2Proof.Machine

/-! ### What any command keeps -/

theorem raise_frame (i : Instr) (e : CommandError) (s : State) : CommandFrame i s (raise e s) := by
  constructor <;> simp

/-- A command, also one that raises, changes only what its frame lets it change. -/
theorem exec_frame {i : Instr} {s t : State} (h : exec i s = .next t) : CommandFrame i s t := by
  rcases exec_cases i s with ⟨e, he⟩ | ⟨u, hu, hf, -⟩
  · obtain rfl := Host.Outcome.next.inj (he.symm.trans h)
    exact raise_frame i e s
  · obtain rfl := Host.Outcome.next.inj (hu.symm.trans h)
    exact hf

/-- TERM_FOUND and TRUNC are written by DES alone (10_state.md R24). -/
theorem exec_keeps_outcome_flags {i : Instr} {s t : State} (hi : i ≠ .des) (h : exec i s = .next t) :
    t.status.termFound = s.status.termFound ∧ t.status.trunc = s.status.trunc := by
  rcases exec_cases i s with ⟨e, he⟩ | ⟨u, hu, -, hst, -⟩
  · obtain rfl := Host.Outcome.next.inj (he.symm.trans h)
    exact ⟨rfl, rfl⟩
  · obtain rfl := Host.Outcome.next.inj (hu.symm.trans h)
    rw [hst hi]
    exact ⟨rfl, rfl⟩

/-! ### Errors -/

/-- STATUS after a CapacityExceeded (60_exceptions.md R184). -/
theorem Status.started_raised_capacityExceeded_toWord : (Status.started.raised .capacityExceeded).toWord = 0x36 := by
  decide

/-- Settles O22: `execEmb_out`. -/
theorem embRaisesLengthRangeFirst : Obligations.EmbRaisesLengthRangeFirst := fun s hrun h =>
  ⟨s.status.raised .lengthRange, execEmb_out h, by rw [hrun, Status.started_raised_lengthRange_toWord]⟩

/-- Settles O23: `execEmb_over`. -/
theorem embRaisesCapacityExceededBeforeMutation : Obligations.EmbRaisesCapacityExceededBeforeMutation :=
  fun s hrun hb hp h => ⟨s.status.raised .capacityExceeded, execEmb_over hb hp h,
    by rw [hrun, Status.started_raised_capacityExceeded_toWord]⟩

/-- Settles O27: `execExt_out`. -/
theorem extRaisesLengthRange : Obligations.ExtRaisesLengthRange := fun s hrun h =>
  ⟨s.status.raised .lengthRange, execExt_out h, by rw [hrun, Status.started_raised_lengthRange_toWord]⟩

/-! ### EMB -/

/-- What the injection of the first `n` bits of `bit` makes of the carriers `pix` (R154, R155): in each carrier some byte with
some bit injected, which are the carrier's byte and the bit wherever these are written (10_state.md R35). -/
structure Embedded (bit : Buffer Bit) (n : Nat) (pix pix' : Buffer Byte) : Prop where
  carrier : ∀ i, i < n → ∃ b x, pix'.read? i = some (injectBit b x) ∧ (∀ b0, pix.read? i = some b0 → b = b0) ∧
    (∀ x0, bit.read? i = some x0 → x = x0)
  beyond : ∀ i, n ≤ i → pix'.read? i = pix.read? i

theorem embeddedPixels_embedded (s : State) :
    Embedded s.mem.bit s.bitLen.toNat s.mem.pix s.embeddedPixels.1 where
  carrier i hi := (embedBits_read? s.mem.bit s.bitLen.toNat 0 s.mem.pix s.draws i).2 (Nat.zero_le i) (by omega)
  beyond i hi := (embedBits_read? s.mem.bit s.bitLen.toNat 0 s.mem.pix s.draws i).1 (.inr (by omega))

section
variable {bit : Buffer Bit} {n i : Nat} {pix pix' pix'' : Buffer Byte}

/-- A written bit is carried by its carrier. -/
theorem Embedded.exists_carriedBit (h : Embedded bit n pix pix') (hi : i < n) {x : Bit} (hx : bit.read? i = some x) :
    ∃ b, pix'.read? i = some b ∧ carriedBit b = x := by
  obtain ⟨b, y, hread, -, hy⟩ := h.carrier i hi
  exact ⟨_, hread, (carriedBit_injectBit b y).trans (hy x hx)⟩

/-- Bits 7 to 1 of a written carrier stay, and a byte that changes is a carrier (R154, R155). -/
theorem Embedded.high_bits (h : Embedded bit n pix pix') {b b' : Byte} (hb : pix.read? i = some b)
    (hb' : pix'.read? i = some b') : b'.extractLsb' 1 7 = b.extractLsb' 1 7 ∧ (b' ≠ b → i < n) := by
  rcases Nat.lt_or_ge i n with hi | hi
  · obtain ⟨b1, x, hread, hold, -⟩ := h.carrier i hi
    obtain rfl := hold b hb
    obtain rfl := Option.some.inj (hread.symm.trans hb')
    refine ⟨BitVec.eq_of_getLsbD_eq fun k hk => ?_, fun _ => hi⟩
    rw [BitVec.getLsbD_extractLsb', BitVec.getLsbD_extractLsb', injectBit_high _ _ (Nat.le_add_right 1 k)]
  · rw [h.beyond i hi, hb] at hb'
    obtain rfl := Option.some.inj hb'
    exact ⟨rfl, fun hne => absurd rfl hne⟩

/-- The second of two injections of the same bits changes no byte beyond the carriers and no carrier of a written bit (R157). -/
theorem Embedded.read?_again (h1 : Embedded bit n pix pix') (h2 : Embedded bit n pix' pix'')
    (hx : i < n → (bit.read? i).isSome = true) : pix''.read? i = pix'.read? i := by
  rcases Nat.lt_or_ge i n with hi | hi
  · obtain ⟨x, hx⟩ := Option.isSome_iff_exists.mp (hx hi)
    obtain ⟨b1, x1, hr1, -, hx1⟩ := h1.carrier i hi
    obtain ⟨b2, x2, hr2, hb2, hx2⟩ := h2.carrier i hi
    obtain rfl := hb2 _ hr1
    obtain rfl := hx1 x hx
    obtain rfl := hx2 _ hx
    rw [hr1, hr2, injectBit_twice]
  · exact h2.beyond i hi

end

/-- What EMB leaves when it completes (R154 to R156). -/
theorem execEmb_spec {s : State} (hb : s.bitLen.toNat ≤ s.cfg.bitCap) (hp : s.pixLen.toNat ≤ s.cfg.pixCap)
    (h : s.bitLen.toNat ≤ s.pixLen.toNat) :
    ∃ t, exec .emb s = .next t ∧ t.status = s.status.completed ∧
      Embedded s.mem.bit s.bitLen.toNat s.mem.pix t.mem.pix :=
  ⟨_, execEmb_in hb hp h, rfl, embeddedPixels_embedded s⟩

/-- EMB raises, or the lengths are in range and the bits fit (R151, R153). -/
theorem execEmb_raises_or_fits (s : State) : (∃ e, exec .emb s = .next (raise e s)) ∨
    (s.bitLen.toNat ≤ s.cfg.bitCap ∧ s.pixLen.toNat ≤ s.cfg.pixCap ∧ s.bitLen.toNat ≤ s.pixLen.toNat) := by
  rcases Nat.lt_or_ge s.cfg.bitCap s.bitLen.toNat with hb | hb
  · exact .inl ⟨_, execEmb_out (.inl hb)⟩
  rcases Nat.lt_or_ge s.cfg.pixCap s.pixLen.toNat with hp | hp
  · exact .inl ⟨_, execEmb_out (.inr hp)⟩
  rcases Nat.lt_or_ge s.pixLen.toNat s.bitLen.toNat with h | h
  · exact .inl ⟨_, execEmb_over hb hp h⟩
  · exact .inr ⟨hb, hp, h⟩

/-- The carrier byte of R154, with the bit as a byte. -/
theorem injectBit_eq_ite (b : Byte) (x : Bit) : injectBit b x = (b &&& 0xFE) ||| (if x then 1 else 0) := by
  cases x <;> rfl

/-- Settles O20: `execEmb_spec`, with the carrier byte written out (`injectBit_eq_ite`). -/
theorem embReplacesBitZeroOfTheCarriers : Obligations.EmbReplacesBitZeroOfTheCarriers := by
  intro s hrun hb hp h
  obtain ⟨t, ht, hst, hemb⟩ := execEmb_spec hb hp h
  refine ⟨t, ht, by rw [hst, hrun, Status.started_completed_toWord], fun i hi => ?_, hemb.beyond,
    fun i b b' => hemb.high_bits⟩
  obtain ⟨b, x, hread, hold, hbit⟩ := hemb.carrier i hi
  exact ⟨b, x, by rw [hread, injectBit_eq_ite], hold, hbit⟩

/-- Settles O21: a raise writes STATUS alone, a completion keeps PIX beyond the bitstream (`execEmb_spec`); the rest is EMB's
frame. -/
theorem embChangesNothingElse : Obligations.EmbChangesNothingElse := by
  intro s t ht
  have hpix : ∀ i, s.bitLen.toNat ≤ i → t.mem.pix.read? i = s.mem.pix.read? i := by
    rcases execEmb_raises_or_fits s with ⟨e, he⟩ | ⟨hb, hp, hl⟩
    · obtain rfl := Host.Outcome.next.inj (he.symm.trans ht)
      exact fun _ _ => rfl
    · obtain ⟨u, hu, -, hemb⟩ := execEmb_spec hb hp hl
      obtain rfl := Host.Outcome.next.inj (hu.symm.trans ht)
      exact hemb.beyond
  have hf := exec_frame ht
  obtain ⟨hbit, hbitLen⟩ := hf.bit nofun nofun
  obtain ⟨htxt, htxtLen⟩ := hf.txt nofun
  exact ⟨hpix, hbit, hbitLen, hf.pixLen, hf.msg, hf.msgLen, htxt, htxtLen, hf.pending, hf.cfg, hf.held, hf.response, hf.host,
    hf.inputs, exec_keeps_outcome_flags (by decide) ht⟩

/-- EMB from its CMD write to its end, when the lengths are in range and the bits fit. -/
theorem runCommand_emb {s : State} (hb : s.bitLen.toNat ≤ s.cfg.bitCap) (hp : s.pixLen.toNat ≤ s.cfg.pixCap)
    (h : s.bitLen.toNat ≤ s.pixLen.toNat) :
    ∃ t, runCommand (commandWord .emb) s = .next t ∧ t.status = Status.started.completed ∧
      Embedded s.mem.bit s.bitLen.toNat s.mem.pix t.mem.pix ∧
      t.cfg = s.cfg ∧ t.mem.bit = s.mem.bit ∧ t.bitLen = s.bitLen ∧ t.pixLen = s.pixLen := by
  obtain ⟨t, ht, hst, hemb⟩ := execEmb_spec (s := startCommand (commandWord .emb) s) hb hp h
  have hf := exec_frame ht
  obtain ⟨hbit, hbitLen⟩ := hf.bit nofun nofun
  exact ⟨t, (runCommand_commandWord _ _).trans ht, hst, hemb, hf.cfg, hbit, hbitLen, hf.pixLen⟩

/-- Settles O24: `runCommand_emb` twice, and `Embedded.read?_again`. -/
theorem embTwiceIsEmbOnce : Obligations.EmbTwiceIsEmbOnce := by
  intro s hb hp h
  obtain ⟨t, ht, -, hemb, hcfg, hbit, hbitLen, hpixLen⟩ := runCommand_emb hb hp h
  refine ⟨t, ht, fun a ⟨hacfg, habit, habitLen, hapix, hapixLen⟩ => ?_⟩
  rw [← hacfg] at hcfg
  rw [← habit] at hbit
  rw [← habitLen] at hbitLen
  rw [← hapixLen] at hpixLen
  obtain ⟨u, hu, hst, hemb', -⟩ := runCommand_emb (s := a) (by rwa [hbitLen, hcfg]) (by rwa [hpixLen, hcfg])
    (by rwa [hbitLen, hpixLen])
  rw [hbit, hbitLen, hapix] at hemb'
  exact ⟨u, hu, by rw [hst, Status.started_completed_toWord], fun i => hemb.read?_again hemb'⟩

/-! ### EXT -/

/-- EXT reads `PIX_LEN` bytes, each with its written value, and carries over their bits 0 (R161). -/
theorem carriedBits_spec (s : State) : ∃ bytes : List Byte, s.carriedBits.1 = bytes.map carriedBit ∧
    bytes.length = s.pixLen.toNat ∧ ReadsAs s.mem.pix bytes := by
  refine ⟨(s.mem.pix.drawRun Config.freeByte 0 s.pixLen.toNat s.draws).1, rfl, by simp, fun k b hk hb => ?_⟩
  rw [Buffer.drawRun_length] at hk
  exact Buffer.drawRun_written hk (by rwa [Nat.zero_add])

/-- What EXT leaves when it completes (R161, R162). -/
theorem execExt_spec {s : State} (h : s.pixLen.toNat ≤ s.cfg.pixCap) :
    ∃ (t : State) (bytes : List Byte), exec .ext s = .next t ∧ bytes.length = s.pixLen.toNat ∧
      ReadsAs s.mem.pix bytes ∧
      (∀ i, i < s.pixLen.toNat → t.mem.bit.read? i = bytes[i]?.map carriedBit) ∧
      (∀ i, s.pixLen.toNat ≤ i → t.mem.bit.read? i = s.mem.bit.read? i) ∧
      t.bitLen = s.pixLen ∧ t.status = s.status.completed := by
  obtain ⟨bytes, hbits, hlen, hreads⟩ := carriedBits_spec s
  refine ⟨_, bytes, execExt_in h, hlen, hreads, fun i hi => ?_, fun i hi => ?_, rfl, rfl⟩
  · rw [← carriedBits_length] at hi
    rw [complete_mem, ← List.getElem?_map, ← hbits, ← Buffer.read?_writeFrom_inside s.mem.bit (i := 0) hi, Nat.zero_add]
  · rw [← carriedBits_length] at hi
    exact Buffer.read?_writeFrom_outside _ (.inr (by rwa [Nat.zero_add]))

/-- Settles O25: `execExt_spec`. -/
theorem extCopiesBitZeroOfEveryByte : Obligations.ExtCopiesBitZeroOfEveryByte := by
  intro s hrun h
  obtain ⟨t, bytes, ht, hlen, hreads, hbit, -, -, hst⟩ := execExt_spec h
  exact ⟨t, bytes, ht, hlen, hreads, hbit, by rw [hst, hrun, Status.started_completed_toWord]⟩

/-- Settles O26: `execExt_spec` for BIT and BIT_LEN; the rest is EXT's frame. -/
theorem extSetsBitLenAndChangesNothingElse : Obligations.ExtSetsBitLenAndChangesNothingElse := by
  intro s t h ht
  obtain ⟨u, -, hu, -, -, -, hout, hbitLen, -⟩ := execExt_spec h
  obtain rfl := Host.Outcome.next.inj (hu.symm.trans ht)
  have hf := exec_frame ht
  obtain ⟨htxt, htxtLen⟩ := hf.txt nofun
  exact ⟨hbitLen, hout, hf.pix nofun, hf.pixLen, hf.msg, hf.msgLen, htxt, htxtLen, hf.pending, hf.cfg, hf.held, hf.response,
    hf.host, hf.inputs, exec_keeps_outcome_flags (by decide) ht⟩

/-- EXT from its CMD write to its end: it carries over bit 0 of every written byte (R161). -/
theorem runCommand_ext {s : State} (h : s.pixLen.toNat ≤ s.cfg.pixCap) :
    ∃ t, runCommand (commandWord .ext) s = .next t ∧ t.status = Status.started.completed ∧ t.cfg = s.cfg ∧
      t.bitLen = s.pixLen ∧
      ∀ i b, i < s.pixLen.toNat → s.mem.pix.read? i = some b → t.mem.bit.read? i = some (carriedBit b) := by
  obtain ⟨t, bytes, ht, hlen, hreads, hbit, -, hbitLen, hst⟩ :=
    execExt_spec (s := startCommand (commandWord .ext) s) h
  refine ⟨t, (runCommand_commandWord _ _).trans ht, hst, (exec_frame ht).cfg, hbitLen, fun i b hi hb => ?_⟩
  rw [hbit i hi, hreads i b (by rwa [hlen]) hb, Option.map_some]

/-! ### EMB and then EXT -/

/-- EXT on carriers into which the first `n` bits of `bit` were injected (R164). -/
theorem runCommand_ext_of_embedded {a : State} {bit : Buffer Bit} {n : Nat} {pix : Buffer Byte}
    (hp : a.pixLen.toNat ≤ a.cfg.pixCap) (hn : n ≤ a.pixLen.toNat) (h : Embedded bit n pix a.mem.pix) :
    ∃ u, runCommand (commandWord .ext) a = .next u ∧ u.status = Status.started.completed ∧ u.cfg = a.cfg ∧
      u.bitLen = a.pixLen ∧
      (∀ i x, i < n → bit.read? i = some x → u.mem.bit.read? i = some x) ∧
      (∀ i b, n ≤ i → i < a.pixLen.toNat → pix.read? i = some b → u.mem.bit.read? i = some (carriedBit b)) := by
  obtain ⟨u, hu, hst, hcfg, hbitLen, hbits⟩ := runCommand_ext hp
  refine ⟨u, hu, hst, hcfg, hbitLen, fun i x hi hx => ?_, fun i b hni hi hb => ?_⟩
  · obtain ⟨b, hb, rfl⟩ := h.exists_carriedBit hi hx
    exact hbits i b (by omega) hb
  · exact hbits i b hi ((h.beyond i hni).trans hb)

/-- Settles O28: `runCommand_emb` and `runCommand_ext_of_embedded`. -/
theorem embThenExtReturnsTheBits : Obligations.EmbThenExtReturnsTheBits := by
  intro s hb hp h
  obtain ⟨t, ht, hst, hemb, hcfg, -, -, hpixLen⟩ := runCommand_emb hb hp h
  refine ⟨t, ht, by rw [hst, Status.started_completed_toWord], fun a hacfg hapix hapixLen => ?_⟩
  rw [← hapix] at hemb
  rw [← hapixLen] at hpixLen
  rw [← hacfg] at hcfg
  obtain ⟨u, hu, -, -, hbitLen, hin, hout⟩ :=
    runCommand_ext_of_embedded (by rwa [hpixLen, hcfg]) (by rwa [hpixLen]) hemb
  rw [hpixLen] at hbitLen hout
  exact ⟨u, hu, hbitLen, hin, hout⟩

/-! ### The whole path -/

/-- Once the decode loop finds the terminator, groups after it do not matter (41_bitstream_codec.md R129). -/
theorem decodeGroups_of_found {bit : Buffer Bit} {n n' k d : Nat} {r : List Byte} (hn : n ≤ n')
    (h : (decodeGroups bit n k r d).2.1 = true) : decodeGroups bit n' k r d = decodeGroups bit n k r d := by
  induction n generalizing n' k r d with
  | zero => cases h
  | succ n ih =>
    obtain ⟨n', rfl⟩ : ∃ l, n' = l + 1 := ⟨n' - 1, by omega⟩
    rw [decodeGroups_succ] at h ⊢
    rw [decodeGroups_succ]
    split at h
    · next hend => rw [if_pos hend, if_pos hend]
    · next hend => rw [if_neg hend, if_neg hend, ih (by omega) h]

/-- DES that finds the terminator in its bitstream does the same, BIT_LEN apart, on a longer one (R129). -/
theorem execDes_of_found {s t : State} {n : Word} (h : exec .des s = .next t) (hfound : s.decodedCharacters.2.1 = true)
    (hle : s.bitLen.toNat ≤ n.toNat) (hcap : n.toNat ≤ s.cfg.bitCap) :
    exec .des { s with bitLen := n } = .next { t with bitLen := n } := by
  obtain rfl := Host.Outcome.next.inj ((execDes_in (hle.trans hcap)).symm.trans h)
  have hsame : State.decodedCharacters { s with bitLen := n } = s.decodedCharacters :=
    decodeGroups_of_found (Nat.div_le_div_right hle) hfound
  have hrun := execDes_in (s := { s with bitLen := n }) hcap
  rw [hsame] at hrun
  refine hrun.trans ?_
  simp [complete, Status.decoded, hfound]

/-- DES from a state whose bitstream begins with that of a message and the terminator: what follows them changes nothing of
the outcome of R135. -/
theorem runCommand_des_of_message_in_front {a : State} {m : List Byte} (hcap : a.bitLen.toNat ≤ a.cfg.bitCap)
    (hlen : 8 * (m.length + 4) ≤ a.bitLen.toNat)
    (hbits : ∀ i, i < 8 * (m.length + 4) → a.mem.bit.read? i = (bitstreamOf (m ++ hashes))[i]?) :
    ∃ u, runCommand (commandWord .des) a = .next u ∧ MessageComesBack m u := by
  obtain ⟨n, hn⟩ : ∃ n : Word, n.toNat = 8 * (m.length + 4) :=
    ⟨_, BitVec.toNat_ofNatLT _ (hlen.trans_lt a.bitLen.isLt)⟩
  rw [← hn] at hlen
  obtain ⟨u, hu, hback⟩ := runCommand_des_of_message (a := { a with bitLen := n }) (hlen.trans hcap) hn hbits
  obtain ⟨q, -, hq⟩ := exists_firstHashes (hashesAt_append_hashes (m := m))
  have hdecoded := decodedCharacters_of_bitstream (s := startCommand (commandWord .des) { a with bitLen := n }) hq
    (by simpa using hn) (by simpa using hbits)
  have hrun := execDes_of_found (n := a.bitLen) ((runCommand_commandWord _ _).symm.trans hu) (by rw [hdecoded]) hlen hcap
  exact ⟨{ u with bitLen := a.bitLen }, (runCommand_commandWord _ _).trans hrun, hback⟩

/-- SER from its CMD write to its end, when the message is in range (41_bitstream_codec.md R122 to R124). -/
theorem runCommand_ser {s : State} (hc : s.cfg.Legal) (h : s.msgLen.toNat ≤ s.cfg.msgCap) :
    ∃ (t : State) (m : List Byte), runCommand (commandWord .ser) s = .next t ∧ t.status = Status.started.completed ∧
      m.length = s.msgLen.toNat ∧ ReadsAs s.mem.msg m ∧
      (∀ i, i < 8 * (m.length + 4) → t.mem.bit.read? i = (bitstreamOf (m ++ hashes))[i]?) ∧
      t.bitLen.toNat = 8 * (m.length + 4) ∧ t.cfg = s.cfg ∧ t.mem.pix = s.mem.pix ∧ t.pixLen = s.pixLen := by
  obtain ⟨t, m, ht, hlen, hreads, hbit, hbitLen, hcfg, hst⟩ :=
    execSer_spec (s := startCommand (commandWord .ser) s) hc h
  have hf := exec_frame ht
  exact ⟨t, m, (runCommand_commandWord _ _).trans ht, hst, hlen, hreads, hbit, hbitLen, hcfg, hf.pix nofun, hf.pixLen⟩

/-- Settles O29: `runCommand_ser`, `runCommand_emb` and `runCommand_ext_of_embedded` bring the bitstream of the message back to
the front of BIT, where `runCommand_des_of_message_in_front` finds it. By K1 and K2 of the configuration (00_scope.md R6) the
bitstream and the carried bits are within BIT_CAP. -/
theorem encodeThenDecodeReturnsTheMessagePrefix : Obligations.EncodeThenDecodeReturnsTheMessagePrefix := by
  intro s hc hm hp hfit
  obtain ⟨t1, m, ht1, hst1, hlen, hreads, hbit1, hbitLen1, hcfg1, -, hpixLen1⟩ := runCommand_ser hc hm
  obtain ⟨hK1, hK2, -⟩ := hc
  refine ⟨t1, m, ht1, by rw [hst1, Status.started_completed_toWord], hlen, hreads, ?_⟩
  rintro a1 ⟨hcfgA1, hbitA1, hbitLenA1, -, hpixLenA1⟩
  rw [← hcfgA1] at hcfg1
  rw [← hbitA1] at hbit1
  rw [← hbitLenA1] at hbitLen1
  rw [← hpixLenA1] at hpixLen1
  obtain ⟨t2, ht2, hst2, hemb, hcfg2, -, -, hpixLen2⟩ := runCommand_emb (s := a1) (by rw [hbitLen1, hcfg1]; omega)
    (by rwa [hpixLen1, hcfg1]) (by rwa [hbitLen1, hpixLen1, hlen])
  refine ⟨t2, ht2, by rw [hst2, Status.started_completed_toWord], ?_⟩
  rintro a2 ⟨hcfgA2, -, -, hpixA2, hpixLenA2⟩
  rw [← hcfgA2, hcfg1] at hcfg2
  rw [← hpixA2, hbitLen1] at hemb
  rw [← hpixLenA2, hpixLen1] at hpixLen2
  obtain ⟨t3, ht3, hst3, hcfg3, hbitLen3, hbit3, -⟩ := runCommand_ext_of_embedded (by rwa [hpixLen2, hcfg2])
    (by rwa [hpixLen2, hlen]) hemb
  refine ⟨t3, ht3, by rw [hst3, Status.started_completed_toWord], ?_⟩
  rintro a3 ⟨hcfgA3, hbitA3, hbitLenA3, -, -⟩
  rw [← hcfgA3, hcfg2] at hcfg3
  rw [← hbitLenA3, hpixLen2] at hbitLen3
  rw [← hbitA3] at hbit3
  refine runCommand_des_of_message_in_front (by rw [hbitLen3, hcfg3]; omega) (by rwa [hbitLen3, hlen]) fun i hi => ?_
  have hget := List.getElem?_eq_getElem (l := bitstreamOf (m ++ hashes)) (i := i) (by simpa using hi)
  rw [hget]
  exact hbit3 i _ hi ((hbit1 i hi).trans hget)

/-- Settles O30: SER leaves `8 * (MSG_LEN + 4)` bits, within BIT_CAP by K1 of the configuration (00_scope.md R6), so EMB completes
when they fit (`runCommand_emb`) and raises when they do not (`execEmb_over`). -/
theorem encodeSucceedsExactlyWhenItFits : Obligations.EncodeSucceedsExactlyWhenItFits := by
  intro s hc hm hp
  obtain ⟨t, m, ht, -, hlen, -, -, hbitLen, hcfg, hpix, hpixLen⟩ := runCommand_ser hc hm
  obtain ⟨hK1, -⟩ := hc
  rw [hlen] at hbitLen
  have hb : t.bitLen.toNat ≤ t.cfg.bitCap := by rw [hbitLen, hcfg]; omega
  have hp : t.pixLen.toNat ≤ t.cfg.pixCap := by rwa [hpixLen, hcfg]
  rw [← hbitLen, ← hpixLen, ← hpix]
  rcases Nat.lt_or_ge t.pixLen.toNat t.bitLen.toNat with hover | hfit
  · refine ⟨t, _, ht, (runCommand_commandWord _ _).trans (execEmb_over hb hp hover),
      ⟨nofun, fun hfit => absurd hover (Nat.not_lt.mpr hfit)⟩, fun _ => ⟨?_, rfl⟩⟩
    rw [raise_status, startCommand_status, Status.started_raised_capacityExceeded_toWord]
  · obtain ⟨u, hu, hst, -⟩ := runCommand_emb hb hp hfit
    refine ⟨t, u, ht, hu, ⟨fun _ => hfit, fun _ => ?_⟩, fun hover => absurd hover (Nat.not_lt.mpr hfit)⟩
    rw [hst, Status.completed_err, Status.started_err]

end Sys2Proof.Machine
end

section
/-! Errors, and that no error stops the block: a command that raises changes STATUS alone, and every step of a legal
configuration answers a next state; the statements of the family 60_exceptions.md. -/

namespace Sys2Proof.Machine

/-! ### A command that raises -/

/-- STATUS after an IllegalCommand (R184). -/
theorem Status.started_raised_illegalCommand_toWord : (Status.started.raised .illegalCommand).toWord = 0x16 := by decide

/-- A completion keeps ERR, so an ENGINE step that turns ERR from 0 to 1 is a raise. -/
theorem engineStep_eq_raise_of_err {s t : State} (hs : s.status.err = false) (h : engineStep s = .next t)
    (herr : t.status.err = true) : ∃ e, t = raise e s := by
  rcases engineStep_next h with hraise | ⟨i, -, -, -, found, hst⟩
  · exact hraise
  · have hkeep : t.status.err = s.status.err := by
      rcases hst with hst | hst <;> rw [hst]
      · exact Status.completed_err _
      · rw [Status.completed_err, Status.decoded_err]
    exact absurd (herr.symm.trans (hkeep.trans hs)) nofun

/-- Settles O11: the three STATUS words of a raise, and for the ENGINE's step that it raised (`engineStep_eq_raise_of_err`). -/
theorem raisingCommandChangesStatusOnly : Obligations.RaisingCommandChangesStatusOnly := by
  have hword : ∀ (e : CommandError) (s : State), Running s →
      (raise e s).status.toWord = (Status.started.raised e).toWord := fun e s hrun => by rw [raise_status, hrun]
  refine ⟨fun s hrun => ⟨?_, ?_, ?_⟩, fun s t hrun h herr => ?_⟩
  · rw [hword _ s hrun, Status.started_raised_illegalCommand_toWord]
  · rw [hword _ s hrun, Status.started_raised_lengthRange_toWord]
  · rw [hword _ s hrun, Status.started_raised_capacityExceeded_toWord]
  · obtain ⟨e, rfl⟩ := engineStep_eq_raise_of_err (by rw [hrun, Status.started_err]) h herr
    refine ⟨raise_eq e s, ?_⟩
    rw [hword e s hrun]
    cases e with
    | illegalCommand => exact .inl Status.started_raised_illegalCommand_toWord
    | lengthRange => exact .inr (.inl Status.started_raised_lengthRange_toWord)
    | capacityExceeded => exact .inr (.inr Status.started_raised_capacityExceeded_toWord)

/-! ### Every step answers a next state -/

/-- The block's move always answers: the ENGINE's step ends every command (`engineStep_ends`), and an answer is a state. -/
theorem blockMove_safe (s : State) : Safe (blockMove s) := by
  rw [blockMove]
  split
  · obtain ⟨t, ht, -⟩ := engineStep_ends s
    exact ⟨t, ht⟩
  · split
    · exact ⟨_, rfl⟩
    · exact ⟨_, rfl⟩

/-- In a well-formed program a branch has one line to go to (30_encoding.md R87, R89). -/
theorem exists_labelAt_of_target {p : List Line} {st : Stmt} {l : Label} (hp : programWellFormed p = true)
    (hst : Line.stmt st ∈ p) (hl : l ∈ st.targets) : ∃ j, LabelAt p l j := by
  obtain ⟨hnodup, htargets⟩ := programWellFormed_iff.mp hp
  obtain ⟨j, hj⟩ := mem_labelsOf.mp (htargets _ hst l hl)
  exact ⟨j, labelAt_of_nodup hnodup hj⟩

/-- A statement of a well-formed host program always answers: only a branch could fail to, and its label is defined. -/
theorem runStmt_safe {st : Stmt} {s : State} (hp : programWellFormed s.host.program = true)
    (hst : Line.stmt st ∈ s.host.program) : Safe (runStmt st s) := by
  have target : ∀ l, l ∈ st.targets → ∃ j, LabelAt s.host.program l j := fun l => exists_labelAt_of_target hp hst
  cases st with
  | wr a v => exact ⟨_, rfl⟩
  | rd a r => exact ⟨_, rfl⟩
  | cmd i => exact ⟨_, rfl⟩
  | halt => exact ⟨_, rfl⟩
  | bset r b l =>
    obtain ⟨j, hj⟩ := target l (List.mem_singleton_self l)
    exact ⟨_, branchIf_of_labelAt _ hj⟩
  | bclr r b l =>
    obtain ⟨j, hj⟩ := target l (List.mem_singleton_self l)
    exact ⟨_, branchIf_of_labelAt _ hj⟩
  | jmp l =>
    obtain ⟨j, hj⟩ := target l (List.mem_singleton_self l)
    exact ⟨_, branchTo_of_labelAt hj⟩

theorem hostMove_safe {s : State} (hp : programWellFormed s.host.program = true) : Safe (hostMove s) := by
  rw [hostMove]
  split
  · exact ⟨_, rfl⟩
  · split
    · next k st hk =>
      obtain ⟨-, hline, -⟩ := (firstStmt_iff s.host k st).mp hk
      exact runStmt_safe hp (List.mem_of_getElem? hline)
    · exact ⟨_, rfl⟩

/-- Whoever's turn it is, the step answers: the block's move and the host program's always do. -/
theorem step_safe {s : State} (hc : s.cfg.Legal) (hp : programWellFormed s.host.program = true) : Safe (step s) := by
  rw [step_legal hc, turn]
  split
  · split
    · exact blockMove_safe s
    · exact hostMove_safe hp
  · exact ⟨_, rfl⟩
  · exact blockMove_safe _
  · split
    · exact blockMove_safe s
    · exact ⟨_, rfl⟩
  · split
    · exact blockMove_safe s
    · exact hostMove_safe hp

/-! ### The host program stays -/

/-- What the port answers from is not the host's (10_state.md R37), so no response changes it. -/
theorem respond_host (tx : BusTx) (s : State) : (respond tx s).2.host = s.host :=
  congrArg (·.2.host) (respond_outside tx s s.inputs s.host)

theorem answer_program (h : Held) (s : State) : (answer h s).host.program = s.host.program := by
  rw [answer_eq, deliver_program, respond_host]

theorem engineStep_host {s t : State} (h : engineStep s = .next t) : t.host = s.host := by
  rcases engineStep_next h with ⟨e, rfl⟩ | ⟨i, -, -, hf, -⟩
  · rfl
  · exact hf.host

/-- No step changes the lines of the host program, a reset included (70_reset_and_hazards.md R201, R205). -/
theorem step_program {s t : State} (h : step s = .next t) : t.host.program = s.host.program := by
  obtain ⟨-, ins, hst, hprog, hm⟩ := step_cases h
  cases hm with
  | reset rest _ ht => rw [ht, takeReset_host, HostState.start]
  | engine _ ht => rw [engineStep_host ht]
  | holds h _ _ _ ht => rw [ht, hprog]
  | answers h hd _ _ _ ht => rw [ht, answer_program, hprog]
  | program ht => rw [ht, hprog]

/-- Settles O46: the step answers (`step_safe`), and no step changes the configuration (`step_cfg`) or the host program
(`step_program`). -/
theorem everyStepAnswersANextState : Obligations.EveryStepAnswersANextState := by
  intro s hc hp
  obtain ⟨t, ht⟩ := step_safe hc hp
  exact ⟨t, ht, step_cfg ht, step_program ht⟩

end Sys2Proof.Machine
end

section
/-! Reset, and what may happen between the CMD write and the end of a command; the statements of the family
70_reset_and_hazards.md. -/

namespace Sys2Proof.Machine

/-! ### Reset (R200, R201) -/

/-- STATUS after reset (R200). -/
theorem Status.reset_toWord : Status.reset.toWord = 0 := by decide

/-- After reset no element of any buffer is written (R200, 10_state.md R35). -/
theorem Memory.reset_read? (i : Nat) :
    Memory.reset.msg.read? i = none ∧ Memory.reset.txt.read? i = none ∧ Memory.reset.bit.read? i = none ∧
      Memory.reset.pix.read? i = none :=
  ⟨rfl, rfl, rfl, rfl⟩

/-- Settles O41: STATUS by `Status.reset_toWord`, the buffers by `Memory.reset_read?`; the other fields are the reset values
themselves. -/
theorem resetMachineIsIdleWithZeroLengths : Obligations.ResetMachineIsIdleWithZeroLengths :=
  ⟨Status.reset_toWord, rfl, rfl, rfl, rfl, rfl, Memory.reset_read?, rfl, rfl, rfl, rfl⟩

/-- With reset next, the step takes it, whatever the block is doing and whatever is held (R201). -/
theorem step_reset {s : State} {rest : List Input} (hc : s.cfg.Legal) (hi : s.inputs = .reset :: rest) :
    step s = .next (takeReset { s with inputs := rest }) := by
  simp [step_legal hc, turn, hi]

/-- Settles O42: the step is `takeReset` (`step_reset`), whose fields are the values of R200. -/
theorem resetInputReplacesTheWholeState : Obligations.ResetInputReplacesTheWholeState := fun _ _ hc hi =>
  ⟨_, step_reset hc hi, Status.reset_toWord, rfl, rfl, rfl, rfl, rfl, rfl, nofun, Memory.reset_read?, rfl, rfl⟩

/-- Settles O45: the configuration is legal, no element is listed, STATUS and TXT_LEN are 0 and nothing is held. -/
theorem resetMachineMeetsTheInvariant : Obligations.ResetMachineMeetsTheInvariant where
  cfg_legal := by decide
  mem_wf := by decide
  mem_bounds := by simp [State.reset, Memory.reset, Memory.InBounds]
  status_legal := by decide
  errcode_known := by decide
  txtLen_le := Nat.zero_le _
  held_legal := nofun

/-! ### Commands right after reset (R202) -/

/-- With no full group in the bitstream DES decodes nothing and draws nothing (41_bitstream_codec.md R128). -/
theorem decodedCharacters_of_short {s : State} (h : s.bitLen.toNat < 8) : s.decodedCharacters = ([], false, s.draws) := by
  rw [State.decodedCharacters, Nat.div_eq_of_lt h, decodeGroups_zero]

/-- With an empty bitstream EMB leaves the carriers and draws nothing (42_channel_embedder.md R154, R155). -/
theorem embeddedPixels_of_empty {s : State} (h : s.bitLen.toNat = 0) : s.embeddedPixels = (s.mem.pix, s.draws) := by
  rw [State.embeddedPixels, h, embedBits_zero]

/-- The empty message is serialized as the terminator (41_bitstream_codec.md R122, R123). -/
theorem runCommand_ser_of_empty {s : State} (hc : s.cfg.Legal) (h : s.msgLen = 0) :
    ∃ t, runCommand (commandWord .ser) s = .next t ∧ t.status.toWord = 0x2 ∧ t.bitLen = 32 ∧
      ∀ k b, k < 4 → b < 8 → t.mem.bit.read? (8 * k + b) = some ((0x23 : Byte).getLsbD (7 - b)) := by
  obtain ⟨t, m, ht, hst, hlen, -, hbit, hbitLen, -⟩ := runCommand_ser hc (s := s) (by simp [h])
  obtain rfl : m = [] := List.length_eq_zero_iff.mp (by simpa [h] using hlen)
  refine ⟨t, ht, hst ▸ Status.started_completed_toWord, BitVec.eq_of_toNat_eq hbitLen, fun k b hk hb => ?_⟩
  rw [hbit _ (by simp; omega), List.nil_append, bitstreamOf_getElem? _ hb, hashes_getElem?, if_pos hk, Option.map_some]

/-- From an empty bitstream DES returns the empty message, with neither outcome flag (41_bitstream_codec.md R131). -/
theorem runCommand_des_of_empty {s : State} (h : s.bitLen = 0) :
    ∃ t, runCommand (commandWord .des) s = .next t ∧ t.status.toWord = 0x2 ∧ t.bitLen = 0 ∧ t.txtLen = 0 := by
  obtain ⟨t, ht, hf, -, -, hlen, hst⟩ := execDes_spec (s := startCommand (commandWord .des) s) (by simp [h])
  rw [decodedCharacters_of_short (by simp [h])] at hlen hst
  refine ⟨t, (runCommand_commandWord _ _).trans ht, ?_, (hf.bit nofun nofun).2.trans h, BitVec.eq_of_toNat_eq hlen⟩
  rw [hst, startCommand_status, Status.started_decoded_toWord, startCommand_bitLen, h]
  rfl

/-- From an empty bitstream EMB succeeds on every carrier buffer in range, and changes STATUS and PENDING only. -/
theorem runCommand_emb_of_empty {s : State} (h : s.bitLen = 0) (hp : s.pixLen.toNat ≤ s.cfg.pixCap) :
    runCommand (commandWord .emb) s =
      .next { s with pending := commandWord .emb, status := Status.started.completed } := by
  have hrun := execEmb_in (s := startCommand (commandWord .emb) s) (by simp [h]) hp (by simp [h])
  rw [embeddedPixels_of_empty (by simp [h])] at hrun
  exact (runCommand_commandWord _ _).trans hrun

/-- Settles O43: one lemma for each command on empty operands, read at the reset lengths. -/
theorem everyCommandSucceedsRightAfterReset : Obligations.EveryCommandSucceedsRightAfterReset := by
  intro s hc
  refine ⟨runCommand_ser_of_empty hc rfl, runCommand_des_of_empty rfl, ?_, ?_⟩
  · exact ⟨_, runCommand_emb_of_empty rfl (Nat.zero_le _), Status.started_completed_toWord, rfl, rfl, rfl, rfl, rfl⟩
  · obtain ⟨t, ht, hst, -, hbitLen, -⟩ := runCommand_ext (s := takeReset s) (Nat.zero_le _)
    exact ⟨t, ht, hst ▸ Status.started_completed_toWord, hbitLen⟩

/-! ### Between the CMD write and the end of the command (R211, R213) -/

/-- Settles O39: STATUS is read at once (`isHeld_statusRead`), and by the invariant it is `0x1` while `BUSY = 1`. -/
theorem statusReadWhileBusyReturnsOne : Obligations.StatusReadWhileBusyReturnsOne := by
  intro s rest hinv hb hn hi
  have hword : s.status.toWord = 0x1 := by rw [hinv.status_legal.1 hb, Status.started_toWord]
  have hread : respond ⟨.read, 0x004, 4⟩ { s with inputs := rest } = (.okayRead 0x1, { s with inputs := rest }) :=
    respond_register (r := .status) (congrArg some hword)
  rw [step_issue hinv.cfg_legal hn hi, issue_not_held (isHeld_statusRead _), answer_eq, hread]
  rfl

/-- The outcome with `o` held on the port. -/
def holding (o : Option Held) : Host.Outcome State Fault Refusal → Host.Outcome State Fault Refusal
  | .next t => .next { t with held := o }
  | .fault e => .fault e
  | .refused e => .refused e

/-- No command looks at the port: whatever is held, each check and each result is the same. -/
theorem exec_holding (i : Instr) (s : State) (o : Option Held) :
    exec i { s with held := o } = holding o (exec i s) := by
  cases i with
  | ser => simp only [exec, execSer, apply_ite (holding o)]; rfl
  | des => simp only [exec, execDes, apply_ite (holding o)]; rfl
  | emb => simp only [exec, execEmb, apply_ite (holding o)]; rfl
  | ext => simp only [exec, execExt, apply_ite (holding o)]; rfl

/-- The ENGINE's step does not look at the port (R213: the command runs on the state before a write that is held). -/
theorem engineStep_holding (s : State) (o : Option Held) :
    engineStep { s with held := o } = holding o (engineStep s) := by
  cases hd : decodeWord s.pending with
  | ok i => rw [engineStep_legal hd, ← exec_holding]; exact engineStep_legal hd
  | error e => rw [engineStep_illegal hd]; exact engineStep_illegal hd

/-- With no input left, a busy block runs its command whatever is held, and keeps holding it (20_memory.md R62). -/
theorem step_runs_while_held {s t : State} (hc : s.cfg.Legal) (hb : s.status.busy = true) (hi : s.inputs = [])
    (ht : engineStep s = .next t) (o : Option Held) : step { s with held := o } = .next { t with held := o } := by
  have hturn : BlockTurn { s with held := o } s.inputs := .inl ⟨hi, hi⟩
  refine (step_of_blockTurn (s := { s with held := o }) hc hb hturn).trans ?_
  rw [engineStep_holding s o, ht, holding]

/-- With no input left, an idle block answers the transaction it holds (20_memory.md R62). -/
theorem step_answers_held {s : State} (hc : s.cfg.Legal) (hb : s.status.busy = false) (hn : s.held = none)
    (hi : s.inputs = []) (h : Held) : step { s with held := some h } = .next (answer h s) := by
  have hs : { s with held := none, inputs := [] } = s := by rw [← hn, ← hi]
  rw [step_legal (s := { s with held := some h }) hc]
  simp [turn, blockMove, hi, hb, hs]

/-- The first step of a run. -/
theorem run_succ {s t : State} (h : step s = .next t) (n : Nat) :
    Host.Core.run core (n + 1) s = Host.Core.run core n t := by
  simp only [Host.Core.run]
  rw [show core.step s = .next t from h]

/-- Settles O40: the write is held, the ENGINE's step runs as if it were not (`engineStep_holding`), and then the write is
answered. -/
theorem writeDuringCommandWaitsForItsEnd : Obligations.WriteDuringCommandWaitsForItsEnd := by
  intro s a v hc hb hn ha hi
  obtain ⟨t, ht, hbusy, -, -, hcfg, hheld, -, -, hins⟩ := engineStepAlwaysEndsTheCommand { s with inputs := [] }
  have hw : BusTx.wellFormed ⟨.write v, a, 4⟩ = true := (wellFormed_iff _).mpr ⟨rfl, ha⟩
  have hissue : step s = .next { s with inputs := [], held := some ⟨⟨.write v, a, 4⟩, .stream⟩ } :=
    (step_issue hc hn hi).trans (congrArg _ (issue_held (isHeld_of_busy hb hw (by simp))))
  have hrun := step_runs_while_held (s := { s with inputs := [] }) hc hb rfl ht (some ⟨⟨.write v, a, 4⟩, .stream⟩)
  have hanswer := step_answers_held (hcfg ▸ hc) hbusy (hheld.trans hn) hins ⟨⟨.write v, a, 4⟩, .stream⟩
  exact ⟨t, ht, hbusy, (run_succ hissue 2).trans ((run_succ hrun 1).trans (run_succ hanswer 0))⟩

/-! ### The bound (R214) -/

theorem respond_inputs (tx : BusTx) (s : State) : (respond tx s).2.inputs = s.inputs :=
  congrArg (·.2.inputs) (respond_outside tx s s.inputs s.host)

/-- What O8 says of the end, for an ENGINE step at hand (R104): BUSY and DONE, and that no input is used up. -/
theorem engineStep_end {s t : State} (h : engineStep s = .next t) :
    t.status.busy = false ∧ t.status.done = true ∧ t.inputs = s.inputs := by
  obtain ⟨u, hu, hbusy, hdone, -, -, -, -, -, hins⟩ := engineStepAlwaysEndsTheCommand s
  obtain rfl := Host.Outcome.next.inj (h.symm.trans hu)
  exact ⟨hbusy, hdone, hins⟩

/-- Every kind of move leaves the inputs it is said to leave. -/
theorem Move.inputs_eq {s t : State} {ins : List Input} {hst : HostState} (hm : Move s t ins hst) : t.inputs = ins := by
  cases hm with
  | reset rest _ ht => rw [ht, takeReset_inputs]
  | engine _ ht => exact (engineStep_end ht).2.2
  | holds h _ _ _ ht => rw [ht]
  | answers h hd _ _ _ ht => rw [ht, answer_eq, deliver_inputs, respond_inputs]
  | program ht => rw [ht]

/-- With nothing held, every step uses up the first input, whoever moves (log 6). -/
theorem step_uses_input {s t : State} {x : Input} {rest : List Input} (hn : s.held = none) (hi : s.inputs = x :: rest)
    (h : step s = .next t) : t.inputs = rest := by
  obtain ⟨hc, -⟩ := step_cases h
  cases x with
  | issue tx =>
    obtain rfl := Host.Outcome.next.inj ((step_issue hc hn hi).symm.trans h)
    exact (issue_cases _ s rest s.host hn (.inr ⟨hn, .inl ⟨rest, hi⟩⟩)).inputs_eq
  | hostTurn =>
    obtain ⟨hst, -, hm⟩ := hostMove_cases rest hn (by simpa [step_legal hc, turn, hi, hn] using h)
    exact hm.inputs_eq
  | blockTurn => exact (blockMove_cases rest (by simpa [step_legal hc, turn, hi] using h)).inputs_eq
  | reset =>
    obtain rfl := Host.Outcome.next.inj ((step_reset hc hi).symm.trans h)
    rfl

/-- A step of a busy block but a reset is the ENGINE's step, or it keeps STATUS and uses up an input: a write is accepted only
while idle (20_memory.md R62). -/
theorem step_of_busy {s t : State} (hb : s.status.busy = true) (hr : .reset ∉ s.inputs) (h : step s = .next t) :
    (∃ ins, engineStep { s with inputs := ins } = .next t) ∨ (t.status = s.status ∧ ∃ x, s.inputs = x :: t.inputs) := by
  obtain ⟨hc, -⟩ := step_cases h
  have hhead : ∀ rest, s.inputs ≠ .reset :: rest := fun rest hi => hr (hi ▸ List.mem_cons_self)
  cases step_effect h with
  | reset rest ins hi _ => exact absurd hi (hhead rest)
  | engine ins _ ht => exact .inl ⟨ins, ht⟩
  | write a v o p u hidle _ _ _ _ => exact absurd (hb.symm.trans hidle) nofun
  | quiet hk =>
    rcases s.held.eq_none_or_eq_some with hn | ⟨x, hx⟩
    · cases hi : s.inputs with
      | nil => exact .inl ⟨[], (step_of_blockTurn hc hb (.inl ⟨hi, rfl⟩)).symm.trans h⟩
      | cons x rest => exact .inr ⟨hk.status, x, by rw [step_uses_input hn hi h]⟩
    · obtain ⟨ins, -, hstep⟩ := step_of_held hc hx hhead
      exact .inl ⟨ins, by rw [← h, hstep, blockMove, if_pos hb]⟩

/-- Settles O49, by induction on the inputs: each step ends the command, or uses up an input and keeps the hypotheses
(`step_of_busy`). -/
theorem busyCommandEndsWithinTheInputs : Obligations.BusyCommandEndsWithinTheInputs := by
  intro s
  induction s using (measure fun s : State => s.inputs.length).wf.induction with
  | _ s ih =>
  intro hc hb hp hr
  obtain ⟨t, ht, hcfg, hprog⟩ := everyStepAnswersANextState s hc hp
  rcases step_of_busy hb (fun h => hr _ h rfl) ht with ⟨ins, he⟩ | ⟨hst, x, hx⟩
  · obtain ⟨hbusy, hdone, -⟩ := engineStep_end he
    exact ⟨1, t, by omega, run_succ ht 0, hbusy, hdone⟩
  · have hlt : t.inputs.length < s.inputs.length := by rw [hx]; exact Nat.lt_succ_self _
    obtain ⟨n, u, hn, hrun, hend⟩ := ih t hlt (hcfg ▸ hc) (hst ▸ hb) (hprog ▸ hp)
      fun y hy => hr y (hx ▸ List.mem_cons_of_mem x hy)
    exact ⟨n + 1, u, by omega, (run_succ ht n).trans hrun, hend⟩

end Sys2Proof.Machine
end
